-- ==== Sys2Proof/Word.lean ====
section
/-! DEFINITION. The two widths the hardware has: the byte of every datum (registers, stream bytes,
immediates, opcode, operand; spec/20_memory.md R33) and the nibble of a register index (spec/00_scope.md R2). -/

namespace Sys2Proof

/-- Eight bits, bit 0 least significant (spec/00_scope.md 7.1). -/
abbrev Byte := BitVec 8

/-- Four bits: a register index field, 0 to 15 (spec/30_encoding.md R51). -/
abbrev Nibble := BitVec 4

end Sys2Proof
end

