-- ==== Sys2Proof/Machine/Alu.lean ====
section
/-! DEFINITION. The `alu` sub-block (spec/45_arith_logic.md R94): a pure function with no flag outputs. -/

namespace Sys2Proof.Machine

/-- The six operations of R94. -/
inductive AluOp where
  | add
  | sub
  | xor
  | or
  | lsl
  | lsr
  deriving DecidableEq, Repr

/-- `alu(op, a, b)` (R94); `b` is unused by the shifts. -/
def alu (op : AluOp) (a b : Byte) : Byte :=
  match op with
  | .add => a + b
  | .sub => a - b
  | .xor => a ^^^ b
  | .or => a ||| b
  | .lsl => a <<< 1
  | .lsr => a >>> 1

end Sys2Proof.Machine
end

