-- ==== Sys2Proof/Config.lean ====
section
/-! DEFINITION. What is fixed for the machine: the numbers of spec/00_scope.md R2, and the one free value
of the model (spec/20_memory.md R36, spec/93_implementation_defined.md U2; log entry 2). -/

namespace Sys2Proof

/-- PROGRAM_MEMORY_SIZE (R2). -/
abbrev Config.programMemorySize : Nat := 256

/-- The instruction record width in bytes (R2). -/
abbrev Config.recordWidth : Nat := 2

/-- The last offset at which a whole instruction record lies in the store (R35). -/
abbrev Config.lastFetchOffset : Nat := 254

/-- FREE VALUE (log entry 2): the byte at offset `offset` of the program store that the load numbered
`launch` did not write. R36: "each has some value in 0 to 255, fixed for the whole run, that the rules do
not give". No body, so no proof can see it. -/
opaque Config.residualByte (launch offset : Nat) : Byte

end Sys2Proof
end

