-- ==== Sys2Proof/Machine/State.lean ====
section
/-! DEFINITION. The state of the CORE and of the environment a step reads or writes (spec/10_state.md), as
plain data, and the reasons a step can stop. -/

namespace Sys2Proof.Machine

/-- The run state `RS` (spec/10_state.md R17). The spec gives it no bit encoding. -/
inductive RunState where
  | ready
  | running
  | halted
  | faulted
  deriving DecidableEq, Repr

/-- The contents of `FINFO` (R18): the offset of the offending instruction and the next-`pc` value outside
the program store, an integer that may be negative. -/
structure FaultRecord where
  offender : Nat
  target : Int
  deriving DecidableEq, Repr

/-- The bytes of the program store that a load has written, as (offset, byte) cells in rising order of
offset (`Memory.wf`). An unlisted offset holds no byte anyone has written. -/
abbrev Memory := List Host.Cell

/-- All the state of spec/10_state.md section 1, and one index of the model's own. -/
structure State where
  /-- `x[0]` to `x[15]` (R10). -/
  x : Vector Byte 16
  /-- `pc`, a byte offset in the store; 0 to 256 in every reachable state (R13, R14, R24). -/
  pc : Nat
  /-- `EOF` (R16). -/
  eof : Bool
  /-- `RS` (R17). -/
  rs : RunState
  /-- `FINFO` (R18); `none` is the spec's "invalid (no fault)". -/
  finfo : Option FaultRecord
  /-- `PS` (R20): what the load wrote of it. -/
  ps : Memory
  /-- `DIN` (R21), next byte first. -/
  din : List Byte
  /-- `DOUT` (R21), oldest byte first. -/
  dout : List Byte
  /-- The MODEL'S own: which free contents the unwritten bytes of `PS` have (log entry 2). -/
  launch : Nat
  /-- Whether a load was tried since reset and the last one tried succeeded: boot duty (2) of R132, without which
  no run starts (U3). That the last attempt decides is the model's choice (log entry 11). -/
  loaded : Bool
  /-- Whether opening the data input stream was tried since reset and the last try succeeded: boot duty (3) of
  R132. That the last attempt decides is the model's choice (log entry 11). -/
  inputReady : Bool
  deriving DecidableEq, Repr

/-- Why a step stops. -/
inductive Fault where
  /-- Raised by `notRunning` (so by `step`) in the terminal state FAULTED, with what `FINFO` holds: R110 has a model
  treat FAULTED as a fault. SAFE: the CORE takes no step there (R61). The instruction that raised
  ProgramFault has already answered its next state. -/
  | programFault (record : Option FaultRecord)
  /-- Raised by `fetchInstr` (so by `step`) when the machine is RUNNING and the record at `pc` does not lie in the store. SAFE:
  R31 and R35 define no such read, and no reachable state asks for it (R24 (a)). -/
  | fetchOutsideStore (pc : Nat)
  deriving DecidableEq, Repr

/-- Why an instruction is refused. -/
inductive Refusal where
  /-- Raised by no arm of `exec`: every instruction has its meaning. SAFE. -/
  | notModelled (mnemonic : String)
  deriving DecidableEq, Repr

/-- The machine right after reset (spec/10_state.md R23, spec/70_reset_and_hazards.md R130). The launch's
input `DIN0` is open in the spec; here it is empty (log entry 3), and `State.resetEvent` takes any. `launch`
is the model's own field (log entry 2); no boot duty but the reset has been done (log entry 10). -/
def State.reset : State where
  x := Vector.replicate 16 0#8
  pc := 0
  eof := false
  rs := .ready
  finfo := none
  ps := []
  din := []
  dout := []
  launch := 0
  loaded := false
  inputReady := false

end Sys2Proof.Machine
end

