-- ==== Sys2Proof/Machine/Ops.lean ====
section
/-! DEFINITION. The named operations over the register file, the program store, the streams, the instruction
pointer and the run state, and taking ProgramFault. -/

namespace Sys2Proof.Machine

/-- `x[i]` (R10). Every register is readable and none is hardwired. -/
def State.reg (s : State) (i : Nibble) : Byte := s.x[i.toNat]'i.isLt

/-- `x[i] <- v` (R10). -/
def State.setReg (s : State) (i : Nibble) (v : Byte) : State :=
  { s with x := s.x.set i.toNat v i.isLt }

/-- The byte a load wrote at offset `a`, if one did. -/
def Memory.read : Memory → Nat → Option Byte
  | [], _ => none
  | (b, v) :: m, a => if a = b then some v else Memory.read m a

/-- Put byte `v` at offset `a`, keeping the cells in rising order. -/
def Memory.write : Memory → Nat → Byte → Memory
  | [], a, v => [(a, v)]
  | (b, w) :: m, a, v =>
    if a < b then (a, v) :: (b, w) :: m
    else if a = b then (a, v) :: m
    else (b, w) :: Memory.write m a v

/-- The offsets rise strictly from `low` on and lie in the store. -/
def Memory.wfFrom (low : Nat) : Memory → Bool
  | [] => true
  | (a, _) :: m => decide (low ≤ a ∧ a < Config.programMemorySize) && Memory.wfFrom (a + 1) m

/-- The canonical form: strictly rising offsets, all of them offsets of the store (R31). An unlisted offset
holds no written byte, so no listed cell can equal it. -/
def Memory.wf (m : Memory) : Bool := Memory.wfFrom 0 m

/-- The cells of a run of bytes laid out from offset `k` on. -/
def Memory.layout (k : Nat) : List Byte → Memory
  | [] => []
  | b :: bs => (k, b) :: Memory.layout (k + 1) bs

/-- `MemRead(a, 1)` for an offset of the store (R31): the byte the load wrote there, or the free byte that an
unwritten offset holds for the whole run (R36, log entry 2). -/
def State.storeByte (s : State) (a : Nat) : Byte :=
  (Memory.read s.ps a).getD (Config.residualByte s.launch a)

/-- `InAvail()` and `InTake()` in one question (R37): the first byte of the stream and the machine with that
byte removed, or `none`, which is `InAvail() = 0` and changes nothing. -/
def State.inTake (s : State) : Option (Byte × State) :=
  match s.din with
  | [] => none
  | byte :: rest => some (byte, { s with din := rest })

/-- `Emit(v)` (R38). -/
def State.emit (s : State) (v : Byte) : State := { s with dout := s.dout ++ [v] }

/-- `pc <- target` for a target already checked (R65 (b)). -/
def State.setPc (s : State) (target : Nat) : State := { s with pc := target }

/-- `raise ProgramFault(offender = pc, target)`: taking the machine's one exception (R110). `RS` and `FINFO`
are written and `pc` keeps the offender's offset; everything the instruction did before is kept (R66). There
is no handler and no return from it (R115, R116). -/
def State.raiseProgramFault (s : State) (target : Int) : State :=
  { s with rs := .faulted, finfo := some ⟨s.pc, target⟩ }

/-- The `instruction_pointer_mux` (R64): integer sums, no wrap-around. -/
def nextPointer (pc : Nat) (jumpTaken : Bool) (disp : Int) : Int :=
  if jumpTaken then (pc : Int) + disp else (pc : Int) + Config.recordWidth

/-- R65 (b) and (c): the bounds check and the commit of `pc`, for every instruction but RET. -/
def State.commit (s : State) (next : Int) : State :=
  if 0 ≤ next ∧ next ≤ Config.lastFetchOffset then s.setPc next.toNat else s.raiseProgramFault next

/-- R65 (a): RET's commit, unchecked because no fetch follows. -/
def State.halt (s : State) : State :=
  { s with rs := .halted, pc := s.pc + Config.recordWidth }

/-- The end of every instruction that takes no jump and does not halt: `next = pc + 2`, checked. -/
def State.advance (s : State) : State := s.commit (nextPointer s.pc false 0)

/-- The end of a taken jump: `next = pc + disp`, checked. -/
def State.jumpBy (s : State) (disp : Int) : State := s.commit (nextPointer s.pc true disp)

/-- What the machine does when it is not RUNNING (R61): in READY and HALTED nothing (log entry 4); FAULTED
is a fault in the model's sense (R110). `running` is not asked. -/
def notRunning (s : State) : Host.Outcome State Fault Refusal :=
  match s.rs with
  | .ready => .next s
  | .running => .next s
  | .halted => .next s
  | .faulted => .fault (.programFault s.finfo)

end Sys2Proof.Machine
end

