-- ==== Sys2Proof/Machine/ArithLogic.lean ====
section
/-! DEFINITION. ADD, SUB, XOR and OR (spec/45_arith_logic.md): `x[lo] <- x[lo] op x[hi]`, no flags. -/

namespace Sys2Proof.Machine

/-- ADD (R90). -/
def execAdd (lo hi : Nibble) (s : State) : Host.Outcome State Fault Refusal :=
  .next (s.setReg lo (alu .add (s.reg lo) (s.reg hi))).advance

/-- SUB (R91): destination minus source. -/
def execSub (lo hi : Nibble) (s : State) : Host.Outcome State Fault Refusal :=
  .next (s.setReg lo (alu .sub (s.reg lo) (s.reg hi))).advance

/-- XOR (R92). -/
def execXor (lo hi : Nibble) (s : State) : Host.Outcome State Fault Refusal :=
  .next (s.setReg lo (alu .xor (s.reg lo) (s.reg hi))).advance

/-- OR (R93). -/
def execOr (lo hi : Nibble) (s : State) : Host.Outcome State Fault Refusal :=
  .next (s.setReg lo (alu .or (s.reg lo) (s.reg hi))).advance

end Sys2Proof.Machine
end

