-- ==== Sys2Proof/Machine/Operands.lean ====
section
/-! DEFINITION. The operand forms (spec/30_encoding.md R50 to R53): registers by nibble are `State.reg`, the
immediate is the operand byte itself; what is left is the displacement and MOVC's fixed register. -/

namespace Sys2Proof.Machine

/-- `sext_8` (spec/00_scope.md 7.1; R53): the two's-complement reading of a byte, which the spec marks as
general knowledge (spec/93_implementation_defined.md G1; log entry 5). -/
def sext8 (v : Byte) : Int :=
  if v.toNat ≤ 127 then (v.toNat : Int) else (v.toNat : Int) - 256

/-- MOVC's destination, always `x[0]` (R76). -/
def movcDest : Nibble := 0#4

end Sys2Proof.Machine
end

