-- ==== Sys2Proof/Machine/Flags.lean ====
section
/-! DEFINITION. The one flag, `EOF` (spec/10_state.md R16): how it is set and what it selects. There are no
condition codes. -/

namespace Sys2Proof.Machine

/-- `EOF <- 1` (R100). No operation clears the flag (R16). -/
def State.setEof (s : State) : State := { s with eof := true }

/-- `jump_taken` of JFE: the flag itself (R86). -/
def State.jfeTaken (s : State) : Bool := s.eof

/-- The gate of OUT: open while the flag is clear (R101). -/
def State.outputOpen (s : State) : Bool := !s.eof

end Sys2Proof.Machine
end

