-- ==== Sys2Proof/Machine/Control.lean ====
section
/-! DEFINITION. JMP, JFE and RET (spec/44_control.md). -/

namespace Sys2Proof.Machine

/-- JMP (R85): to the jump's own offset plus the displacement; 2 is not added. -/
def execJmp (disp : Byte) (s : State) : Host.Outcome State Fault Refusal :=
  .next (s.jumpBy (sext8 disp))

/-- JFE (R86): as JMP when `EOF` is set, else on to the next record. -/
def execJfe (disp : Byte) (s : State) : Host.Outcome State Fault Refusal :=
  .next (if s.jfeTaken then s.jumpBy (sext8 disp) else s.advance)

/-- RET (R87): HALTED, with `pc` advanced and not checked. -/
def execRet (s : State) : Host.Outcome State Fault Refusal := .next s.halt

end Sys2Proof.Machine
end

