-- ==== Sys2Proof/Machine/InputOutput.lean ====
section
/-! DEFINITION. IN and OUT (spec/46_io.md). Neither blocks (spec/20_memory.md R46). -/

namespace Sys2Proof.Machine

/-- IN (R100): the stream is asked before any read; a byte goes to `x[lo]` as it is, an exhausted stream sets
`EOF` and leaves the register. -/
def execInp (lo : Nibble) (s : State) : Host.Outcome State Fault Refusal :=
  match s.inTake with
  | some (byte, s') => .next (s'.setReg lo byte).advance
  | none => .next s.setEof.advance

/-- OUT (R101): gated by the flag, not by the state of the stream. -/
def execOut (lo : Nibble) (s : State) : Host.Outcome State Fault Refusal :=
  .next (if s.outputOpen then s.emit (s.reg lo) else s).advance

end Sys2Proof.Machine
end

