-- ==== Sys2Proof/Machine/Move.lean ====
section
/-! DEFINITION. MOV and MOVC (spec/42_move.md). -/

namespace Sys2Proof.Machine

/-- MOV (R75): `x[lo] <- x[hi]`. -/
def execMov (lo hi : Nibble) (s : State) : Host.Outcome State Fault Refusal :=
  .next (s.setReg lo (s.reg hi)).advance

/-- MOVC (R76): `x[0] <- imm`. -/
def execMovc (imm : Byte) (s : State) : Host.Outcome State Fault Refusal :=
  .next (s.setReg movcDest imm).advance

end Sys2Proof.Machine
end

