-- ==== Sys2Proof/Machine/Reserved.lean ====
section
/-! DEFINITION. INC, DEC and the unassigned opcodes (spec/41_reserved_noop.md): they only advance `pc`. -/

namespace Sys2Proof.Machine

/-- INC (R70): no register is incremented. -/
def execInc (s : State) : Host.Outcome State Fault Refusal := .next s.advance

/-- DEC (R71): no register is decremented. -/
def execDec (s : State) : Host.Outcome State Fault Refusal := .next s.advance

/-- The 241 unassigned opcode values (R72): no-ops, not errors. -/
def execNopUnassigned (s : State) : Host.Outcome State Fault Refusal := .next s.advance

end Sys2Proof.Machine
end

