-- ==== Sys2Proof/Machine/Shift.lean ====
section
/-! DEFINITION. LSL and LSR (spec/43_shift.md): by exactly one position; the high nibble is no shift count. -/

namespace Sys2Proof.Machine

/-- LSL (R80). -/
def execLsl (lo : Nibble) (s : State) : Host.Outcome State Fault Refusal :=
  .next (s.setReg lo (alu .lsl (s.reg lo) 0#8)).advance

/-- LSR (R81). -/
def execLsr (lo : Nibble) (s : State) : Host.Outcome State Fault Refusal :=
  .next (s.setReg lo (alu .lsr (s.reg lo) 0#8)).advance

end Sys2Proof.Machine
end

