-- ==== Sys2Proof/Syntax.lean ====
section
/-! DEFINITION. The VM instruction set: one constructor per row of spec/opcode_table.json, in its order. -/

namespace Sys2Proof

/-- An instruction. `lo` and `hi` are the low and the high nibble of the operand byte (R51), `imm` and `disp`
the whole operand byte (R52, R53), `operand` an operand byte the instruction ignores (R50 format N). Bits a
format ignores (R57) are kept in the syntax, so that an instruction says every bit of its record; no meaning
looks at them. -/
inductive Instr where
  | inc (operand : Byte)
  | dec (operand : Byte)
  | mov (lo hi : Nibble)
  | movc (imm : Byte)
  | lsl (lo hi : Nibble)
  | lsr (lo hi : Nibble)
  | jmp (disp : Byte)
  | jfe (disp : Byte)
  | ret (operand : Byte)
  | add (lo hi : Nibble)
  | sub (lo hi : Nibble)
  | xor (lo hi : Nibble)
  | or (lo hi : Nibble)
  | inp (lo hi : Nibble)
  | out (lo hi : Nibble)
  | nopUnassigned (opcode operand : Byte)
  deriving DecidableEq, Repr

end Sys2Proof
end

