-- ==== Sys2Proof/Machine/Dispatch.lean ====
section
/-! DEFINITION. The `case opcode of` of the step (spec/40_cycle.md R62): one arm per constructor. -/

namespace Sys2Proof.Machine

def exec (i : Instr) (s : State) : Host.Outcome State Fault Refusal :=
  match i with
  | .inc _ => Sys2Proof.Machine.execInc s
  | .dec _ => Sys2Proof.Machine.execDec s
  | .mov lo hi => Sys2Proof.Machine.execMov lo hi s
  | .movc imm => Sys2Proof.Machine.execMovc imm s
  | .lsl lo _ => Sys2Proof.Machine.execLsl lo s
  | .lsr lo _ => Sys2Proof.Machine.execLsr lo s
  | .jmp disp => Sys2Proof.Machine.execJmp disp s
  | .jfe disp => Sys2Proof.Machine.execJfe disp s
  | .ret _ => Sys2Proof.Machine.execRet s
  | .add lo hi => Sys2Proof.Machine.execAdd lo hi s
  | .sub lo hi => Sys2Proof.Machine.execSub lo hi s
  | .xor lo hi => Sys2Proof.Machine.execXor lo hi s
  | .or lo hi => Sys2Proof.Machine.execOr lo hi s
  | .inp lo _ => Sys2Proof.Machine.execInp lo s
  | .out lo _ => Sys2Proof.Machine.execOut lo s
  | .nopUnassigned _ _ => Sys2Proof.Machine.execNopUnassigned s

end Sys2Proof.Machine
end

