-- ==== Sys2Proof/WellFormed.lean ====
section
/-! DEFINITION. Which terms of `Instr` are instructions of the hardware. -/

namespace Sys2Proof

/-- The fifteen assigned opcodes, in the order of spec/30_encoding.md R54. -/
def assignedOpcodes : List Byte :=
  [0x01#8, 0x02#8, 0x03#8, 0x04#8, 0x05#8, 0x06#8, 0x07#8, 0x0A#8, 0x0B#8,
   0x0C#8, 0x0D#8, 0x0E#8, 0x0F#8, 0x10#8, 0x11#8]

/-- R57: every operand byte is legal for every format, so the one thing to check is that a
NOP_UNASSIGNED carries one of the 241 unassigned opcode values (R55). -/
def Instr.wf : Instr → Bool
  | .inc _ => true
  | .dec _ => true
  | .mov _ _ => true
  | .movc _ => true
  | .lsl _ _ => true
  | .lsr _ _ => true
  | .jmp _ => true
  | .jfe _ => true
  | .ret _ => true
  | .add _ _ => true
  | .sub _ _ => true
  | .xor _ _ => true
  | .or _ _ => true
  | .inp _ _ => true
  | .out _ _ => true
  | .nopUnassigned opcode _ => !(assignedOpcodes.contains opcode)

end Sys2Proof
end

