-- ==== Sys2Proof/Decode.lean ====
section
/-! DEFINITION. The `instruction_decoder` (spec/30_encoding.md) from bytes to instructions, and the encoder
written from the same tables. -/

namespace Sys2Proof

/-- `operand[3:0]` (R51). -/
def loField (operand : Byte) : Nibble := operand.extractLsb' 0 4

/-- `operand[7:4]` (R51): the true high nibble, not the stale pre-decoded field the source warns of. -/
def hiField (operand : Byte) : Nibble := operand.extractLsb' 4 4

/-- R54 and R55: the opcode byte alone selects the operation, and a value not in the table is a no-op. -/
def decodeRecord (opcode operand : Byte) : Instr :=
  match opcode with
  | 0x01#8 => .inc operand
  | 0x02#8 => .dec operand
  | 0x03#8 => .mov (loField operand) (hiField operand)
  | 0x04#8 => .movc operand
  | 0x05#8 => .lsl (loField operand) (hiField operand)
  | 0x06#8 => .lsr (loField operand) (hiField operand)
  | 0x07#8 => .jmp operand
  | 0x0A#8 => .jfe operand
  | 0x0B#8 => .ret operand
  | 0x0C#8 => .add (loField operand) (hiField operand)
  | 0x0D#8 => .sub (loField operand) (hiField operand)
  | 0x0E#8 => .xor (loField operand) (hiField operand)
  | 0x0F#8 => .or (loField operand) (hiField operand)
  | 0x10#8 => .inp (loField operand) (hiField operand)
  | 0x11#8 => .out (loField operand) (hiField operand)
  | _ => .nopUnassigned opcode operand

/-- Why bytes give no instruction. The hardware has no illegal instruction (R57): only a list of fewer than
two bytes is refused, and fetch never hands one over (R32). -/
inductive DecodeError where
  | noOpcodeByte
  | noOperandByte
  deriving DecidableEq, Repr

/-- Decoding from a list of bytes, lowest offset first (R33); every instruction takes two (R58). -/
def decode : List Byte → Except DecodeError (Instr × List Byte)
  | [] => .error .noOpcodeByte
  | [_] => .error .noOperandByte
  | opcode :: operand :: rest => .ok (decodeRecord opcode operand, rest)

/-- An operand byte from its two nibbles: `S * 16 + D` (R59). -/
def operandByte (lo hi : Nibble) : Byte := hi ++ lo

/-- The opcode byte of an instruction (R54). -/
def opcodeOf : Instr → Byte
  | .inc _ => 0x01#8
  | .dec _ => 0x02#8
  | .mov _ _ => 0x03#8
  | .movc _ => 0x04#8
  | .lsl _ _ => 0x05#8
  | .lsr _ _ => 0x06#8
  | .jmp _ => 0x07#8
  | .jfe _ => 0x0A#8
  | .ret _ => 0x0B#8
  | .add _ _ => 0x0C#8
  | .sub _ _ => 0x0D#8
  | .xor _ _ => 0x0E#8
  | .or _ _ => 0x0F#8
  | .inp _ _ => 0x10#8
  | .out _ _ => 0x11#8
  | .nopUnassigned opcode _ => opcode

/-- The operand byte of an instruction, by its format (R50). -/
def operandOf : Instr → Byte
  | .inc operand => operand
  | .dec operand => operand
  | .mov lo hi => operandByte lo hi
  | .movc imm => imm
  | .lsl lo hi => operandByte lo hi
  | .lsr lo hi => operandByte lo hi
  | .jmp disp => disp
  | .jfe disp => disp
  | .ret operand => operand
  | .add lo hi => operandByte lo hi
  | .sub lo hi => operandByte lo hi
  | .xor lo hi => operandByte lo hi
  | .or lo hi => operandByte lo hi
  | .inp lo hi => operandByte lo hi
  | .out lo hi => operandByte lo hi
  | .nopUnassigned _ operand => operand

/-- The two bytes of an instruction record, the opcode at the lower offset (R33, R50). -/
def encode (i : Instr) : List Byte := [opcodeOf i, operandOf i]

/-- The bytes of an instruction whose bits spec/opcode_table.json numbers as `w`: the table writes a record as
`opcode * 256 + operand` (R33), so bits 15:8 are the byte at the lower offset. Bits from `nbits` up are 0. -/
def tableWordBytes (nbits w : Nat) : List Byte :=
  [BitVec.ofNat 8 (w % 2 ^ nbits / 256), BitVec.ofNat 8 (w % 2 ^ nbits)]

/-- The instruction the decoder reads from the table word `w`; no instruction is longer than 16 bits (R58). -/
def decodeTableWord (nbits w : Nat) : Option Instr :=
  if nbits ≤ 16 then
    match decode (tableWordBytes nbits w) with
    | .ok (i, _) => some i
    | .error _ => none
  else none

end Sys2Proof
end

