-- ==== Sys2Proof/Machine/Fetch.lean ====
section
/-! DEFINITION. The `fetch_unit` (spec/20_memory.md R32), and placing one record where it will be fetched. -/

namespace Sys2Proof.Machine

/-- Fetch and decode the record at `pc`: the opcode at `pc`, the operand at `pc + 1` (R32), at any alignment
(R34). An offset without a whole record in the store has no instruction (R35). -/
def fetchInstr (s : State) : Except Fault Instr :=
  if s.pc ≤ Config.lastFetchOffset then
    .ok (decodeRecord (s.storeByte s.pc) (s.storeByte (s.pc + 1)))
  else .error (.fetchOutsideStore s.pc)

/-- Where the machine fetches next once it runs: `pc`, or offset 0 where `pc` can hold no record (only a
machine that RET halted at the end of the store; a new run starts at 0, R131). -/
def fetchOffset (pc : Nat) : Nat := if pc ≤ Config.lastFetchOffset then pc else 0

/-- Write bytes into the store one after the other from offset `a` on. -/
def Memory.writeBytes (m : Memory) (a : Nat) : List Byte → Memory
  | [] => m
  | b :: bs => Memory.writeBytes (Memory.write m a b) (a + 1) bs

/-- Place a record where the next step fetches and let the machine run (log entry 6): it stands for the load,
the input made ready and the run event (R132), which together are what a first instruction takes. -/
def State.placeRecord (s : State) (bytes : List Byte) : State :=
  { s with
    pc := fetchOffset s.pc
    rs := .running
    loaded := true
    inputReady := true
    ps := Memory.writeBytes s.ps (fetchOffset s.pc) bytes }

end Sys2Proof.Machine
end

