-- ==== Sys2Proof/Machine/Step.lean ====
section
/-! DEFINITION. One step of the machine (spec/40_cycle.md R61, R62). -/

namespace Sys2Proof.Machine

/-- A RUNNING machine fetches, decodes and executes one instruction; any other takes no step (R61). -/
def step (s : State) : Host.Outcome State Fault Refusal :=
  if s.rs = .running then
    match fetchInstr s with
    | .ok i => exec i s
    | .error f => .fault f
  else notRunning s

/-- `s` with the instruction of table word `w` placed where `step` fetches next (log entry 6). -/
def State.withFetchWord (s : State) (nbits w : Nat) : State :=
  s.placeRecord (tableWordBytes nbits w)

end Sys2Proof.Machine
end

