-- ==== Sys2Proof/Machine/Launch.lean ====
section
/-! DEFINITION. What the host does to the machine (spec/00_scope.md section 5, spec/70_reset_and_hazards.md):
reset, load, making the input ready, the run event, and the boot that puts them in order. The host acts outside `step`. -/

namespace Sys2Proof.Machine

/-- Reset, in any state (R130): every piece of state at its reset value, and a new launch with input `din0`.
The store is unspecified until the load (R23), so nothing of it is known any more. -/
def State.resetEvent (s : State) (din0 : List Byte) : State :=
  { State.reset with din := din0, launch := s.launch + 1 }

/-- The load (R36, boot duty (2) of R132): the first 256 bytes of the program from offset 0 on; the bytes it
does not write are free values, fixed until the next load. `none` is a source that could not be opened (R118):
nothing is then known of the store (the model's choice, log entry 10), and the load has not succeeded (U3). The
host loads before the run only (R132; log entry 7). R132 names one load and R118 is silent on a second without a
reset. The model's choice (log entry 11): the last load decides, so a success after a failure lets a run start, a
failure after a success forbids it, and the second load replaces the whole store. -/
def State.load (s : State) (source : Option (List Byte)) : State :=
  if s.rs = .ready then
    { s with
      ps := Memory.layout 0 ((source.getD []).take Config.programMemorySize)
      launch := s.launch + 1
      loaded := source.isSome }
  else s

/-- Making the data input stream ready (boot duty (3) of R132), or failing to. What it answers from is the
`DIN0` that the reset of this launch put into `DIN` (R130). Before the run only (log entry 7), before the load or
after it (log entry 10). R132 names one opening and R118 is silent on a second without a reset. The model's choice
(log entry 11): the last opening decides, a success after a failure lets a run start, a failure after a success
forbids it, and each leaves `DIN` as it is. -/
def State.openInput (s : State) (opened : Bool) : State :=
  if s.rs = .ready then { s with inputReady := opened } else s

/-- Whether the run event can be delivered: READY (R131), with the last load tried since reset, and the
last opening of the input, a success (the model's choice, log entry 11). R131 itself names READY alone; that an event without the other two is not delivered is R132, R118 and U3, and that the
model asks for them HERE, so that such an event has no effect, is the model's choice (log entry 10). -/
def State.canRun (s : State) : Bool := s.rs == .ready && s.loaded && s.inputReady

/-- The run event (R131): READY to RUNNING at offset 0. Where it cannot be delivered (`State.canRun`) nothing
happens: the machine stays READY, or as it is in another state (D12; log entry 10). -/
def State.runEvent (s : State) : State :=
  if s.canRun then { s with pc := 0, rs := .running } else s

/-- The boot duties in their order (R132). `none` is a program or a data source that could not be opened: every
other duty is done all the same (the model's choice, log entry 10), and the run event alone is not delivered
(R118, R132). -/
def State.boot (s : State) (program data : Option (List Byte)) : State :=
  (((s.resetEvent (data.getD [])).load program).openInput data.isSome).runEvent

/-- The host's moves (spec/00_scope.md section 5, R132). -/
inductive HostMove where
  | reset (din0 : List Byte)
  | load (source : Option (List Byte))
  | openInput (opened : Bool)
  | run
  deriving DecidableEq, Repr

/-- What each move does. -/
def State.hostMove (s : State) : HostMove → State
  | .reset din0 => s.resetEvent din0
  | .load source => s.load source
  | .openInput opened => s.openInput opened
  | .run => s.runEvent

end Sys2Proof.Machine
end

