-- ==== Sys2Proof/Safety.lean ====
section
/-! DEFINITION. The terms claims are stated in: runs, good and bad ends, the invariants of
spec/10_state.md R24, and what a step leaves alone. -/

namespace Sys2Proof.Machine

/-- `t` is the state `n` steps after `s` (spec/40_cycle.md R69 counts steps). -/
def Steps : Nat → State → State → Prop
  | 0, s, t => t = s
  | n + 1, s, t => ∃ u, step s = .next u ∧ Steps n u t

/-- A run that has ended well (spec/70_reset_and_hazards.md R138). -/
def State.EndedWell (s : State) : Prop := s.rs = .halted

/-- A run that has ended in the fault (R110, R138). -/
def State.EndedInFault (s : State) : Prop := s.rs = .faulted

/-- The invariants of R24 (a), (b), (c), (f), with the ranges of `FINFO` (R18), a fault record kept only in
FAULTED, the canonical form of the store, and U3: no machine has left READY without a successful load and an
input made ready (R132). -/
structure State.Inv (s : State) : Prop where
  runningPc : s.rs = .running → s.pc ≤ 254
  pcBound : s.pc ≤ 256
  pastEnd : 254 < s.pc → s.rs = .halted
  eofDry : s.eof = true → s.din = []
  readyFresh : s.rs = .ready → (∀ r, s.reg r = 0#8) ∧ s.eof = false ∧ s.pc = 0 ∧ s.dout = []
  faultRecord : s.rs = .faulted → ∃ target : Int, s.finfo = some ⟨s.pc, target⟩ ∧
    (-128 ≤ target ∧ target ≤ -1 ∨ 255 ≤ target ∧ target ≤ 381)
  noRecord : s.rs ≠ .faulted → s.finfo = none
  storeCanonical : s.ps.wf = true
  bootedToRun : s.rs ≠ .ready → s.loaded = true ∧ s.inputReady = true

/-! ### What a next state leaves alone -/

/-- Every register as before. -/
def SameRegs (s t : State) : Prop := ∀ r : Nibble, t.reg r = s.reg r

/-- Every register but `d` as before. -/
def SameRegsExcept (d : Nibble) (s t : State) : Prop := ∀ r : Nibble, r ≠ d → t.reg r = s.reg r

/-- Both streams as before. -/
def SameStreams (s t : State) : Prop := t.din = s.din ∧ t.dout = s.dout

/-- Every byte of the program store as before: what the load wrote, what it did not, and every read; and with it
what the boot has done, which only the host's moves change. -/
def SameStore (s t : State) : Prop :=
  t.ps = s.ps ∧ t.launch = s.launch ∧ t.loaded = s.loaded ∧ t.inputReady = s.inputReady ∧
  ∀ a, t.storeByte a = s.storeByte a

/-- Normal completion of an instruction that neither jumps nor halts: `pc` two further, still running as
before, no fault recorded. -/
def WentOn (s t : State) : Prop := t.pc = s.pc + 2 ∧ t.rs = s.rs ∧ t.finfo = s.finfo

/-- ProgramFault taken with next pointer `target` (R110). -/
def TookFault (s : State) (target : Int) (t : State) : Prop :=
  t.pc = s.pc ∧ t.rs = .faulted ∧ t.finfo = some ⟨s.pc, target⟩

/-- The clause every rule of an instruction that neither jumps nor halts ends with (R65 (b), (c)): it goes on
at `pc + 2`, and ProgramFault is raised when `pc` is 253 or 254 (no RUNNING state of a run has a greater one). -/
def GoesOnOrFaults (s t : State) : Prop :=
  (s.pc ≤ 252 → WentOn s t) ∧ (s.pc = 253 ∨ s.pc = 254 → TookFault s ((s.pc : Int) + 2) t)

/-- Nothing but register `d` and the pointer (or the fault) may differ. -/
def OnlyRegister (d : Nibble) (s t : State) : Prop :=
  SameRegsExcept d s t ∧ t.eof = s.eof ∧ SameStreams s t ∧ SameStore s t

/-- Nothing but the pointer (or the fault) may differ. -/
def OnlyPointer (s t : State) : Prop :=
  SameRegs s t ∧ t.eof = s.eof ∧ SameStreams s t ∧ SameStore s t

/-! ### The tables of the spec that claims refer to -/

/-- The registers an instruction reads (spec/10_state.md R11). -/
def readSet (i : Instr) (s : State) : List Nibble :=
  match i with
  | .inc _ => []
  | .dec _ => []
  | .mov _ hi => [hi]
  | .movc _ => []
  | .lsl lo _ => [lo]
  | .lsr lo _ => [lo]
  | .jmp _ => []
  | .jfe _ => []
  | .ret _ => []
  | .add lo hi => [lo, hi]
  | .sub lo hi => [lo, hi]
  | .xor lo hi => [lo, hi]
  | .or lo hi => [lo, hi]
  | .inp _ _ => []
  | .out lo _ => if s.eof then [] else [lo]
  | .nopUnassigned _ _ => []

/-- The registers an instruction writes (R11). -/
def writeSet (i : Instr) (s : State) : List Nibble :=
  match i with
  | .inc _ => []
  | .dec _ => []
  | .mov lo _ => [lo]
  | .movc _ => [0#4]
  | .lsl lo _ => [lo]
  | .lsr lo _ => [lo]
  | .jmp _ => []
  | .jfe _ => []
  | .ret _ => []
  | .add lo _ => [lo]
  | .sub lo _ => [lo]
  | .xor lo _ => [lo]
  | .or lo _ => [lo]
  | .inp lo _ => if s.din = [] then [] else [lo]
  | .out _ _ => []
  | .nopUnassigned _ _ => []

/-- `jump_taken` (spec/40_cycle.md R63, R64): 1 for JMP, `EOF` for JFE, else 0. -/
def jumpTaken (i : Instr) (s : State) : Bool :=
  match i with
  | .inc _ => false
  | .dec _ => false
  | .mov _ _ => false
  | .movc _ => false
  | .lsl _ _ => false
  | .lsr _ _ => false
  | .jmp _ => true
  | .jfe _ => s.eof
  | .ret _ => false
  | .add _ _ => false
  | .sub _ _ => false
  | .xor _ _ => false
  | .or _ _ => false
  | .inp _ _ => false
  | .out _ _ => false
  | .nopUnassigned _ _ => false

/-- `halt_next` (R63): 1 for RET alone. -/
def haltNext : Instr → Bool
  | .inc _ => false
  | .dec _ => false
  | .mov _ _ => false
  | .movc _ => false
  | .lsl _ _ => false
  | .lsr _ _ => false
  | .jmp _ => false
  | .jfe _ => false
  | .ret _ => true
  | .add _ _ => false
  | .sub _ _ => false
  | .xor _ _ => false
  | .or _ _ => false
  | .inp _ _ => false
  | .out _ _ => false
  | .nopUnassigned _ _ => false

/-- The displacement of a jump, as the mux receives it; 0 for an instruction without one. -/
def displacement : Instr → Int
  | .inc _ => 0
  | .dec _ => 0
  | .mov _ _ => 0
  | .movc _ => 0
  | .lsl _ _ => 0
  | .lsr _ _ => 0
  | .jmp disp => sext8 disp
  | .jfe disp => sext8 disp
  | .ret _ => 0
  | .add _ _ => 0
  | .sub _ _ => 0
  | .xor _ _ => 0
  | .or _ _ => 0
  | .inp _ _ => 0
  | .out _ _ => 0
  | .nopUnassigned _ _ => 0

/-- The two columns of spec/60_exceptions.md R112 for an instruction at `pc` with flag `EOF`: whether it raises
ProgramFault, and the target it then records. -/
def faultColumns (i : Instr) (s : State) : Prop × Int :=
  match i with
  | .inc _ => (s.pc = 253 ∨ s.pc = 254, (s.pc : Int) + 2)
  | .dec _ => (s.pc = 253 ∨ s.pc = 254, (s.pc : Int) + 2)
  | .mov _ _ => (s.pc = 253 ∨ s.pc = 254, (s.pc : Int) + 2)
  | .movc _ => (s.pc = 253 ∨ s.pc = 254, (s.pc : Int) + 2)
  | .lsl _ _ => (s.pc = 253 ∨ s.pc = 254, (s.pc : Int) + 2)
  | .lsr _ _ => (s.pc = 253 ∨ s.pc = 254, (s.pc : Int) + 2)
  | .jmp disp => ((s.pc : Int) + sext8 disp < 0 ∨ (s.pc : Int) + sext8 disp > 254, (s.pc : Int) + sext8 disp)
  | .jfe disp =>
    if s.eof then
      ((s.pc : Int) + sext8 disp < 0 ∨ (s.pc : Int) + sext8 disp > 254, (s.pc : Int) + sext8 disp)
    else (s.pc = 253 ∨ s.pc = 254, (s.pc : Int) + 2)
  | .ret _ => (False, 0)
  | .add _ _ => (s.pc = 253 ∨ s.pc = 254, (s.pc : Int) + 2)
  | .sub _ _ => (s.pc = 253 ∨ s.pc = 254, (s.pc : Int) + 2)
  | .xor _ _ => (s.pc = 253 ∨ s.pc = 254, (s.pc : Int) + 2)
  | .or _ _ => (s.pc = 253 ∨ s.pc = 254, (s.pc : Int) + 2)
  | .inp _ _ => (s.pc = 253 ∨ s.pc = 254, (s.pc : Int) + 2)
  | .out _ _ => (s.pc = 253 ∨ s.pc = 254, (s.pc : Int) + 2)
  | .nopUnassigned _ _ => (s.pc = 253 ∨ s.pc = 254, (s.pc : Int) + 2)

/-- The states agree in everything but the registers. -/
def AgreeButRegs (s t : State) : Prop :=
  t.pc = s.pc ∧ t.eof = s.eof ∧ t.rs = s.rs ∧ t.finfo = s.finfo ∧ t.ps = s.ps ∧ t.din = s.din ∧
  t.dout = s.dout ∧ t.launch = s.launch ∧ t.loaded = s.loaded ∧ t.inputReady = s.inputReady

/-- The states agree in everything but what the program store holds (`ps`, and `launch` for its unwritten bytes). -/
def AgreeButStore (s t : State) : Prop :=
  SameRegs s t ∧ t.pc = s.pc ∧ t.eof = s.eof ∧ t.rs = s.rs ∧ t.finfo = s.finfo ∧ t.din = s.din ∧
  t.dout = s.dout ∧ t.loaded = s.loaded ∧ t.inputReady = s.inputReady

/-- Every piece of CORE state as reset leaves it (R23), with input `din0` and no output. -/
def ResetWith (din0 : List Byte) (t : State) : Prop :=
  (∀ r : Nibble, t.reg r = 0#8) ∧ t.pc = 0 ∧ t.eof = false ∧ t.rs = .ready ∧ t.finfo = none ∧
  t.dout = [] ∧ t.din = din0

end Sys2Proof.Machine
end

