-- ==== Sys2Proof/Certificates/Slice0/Obligations.lean ====
section
/-! DEFINITION. The statements for the provers. Each docstring names the rule or the section of spec/ it
formalises; a clause that rests on a choice of the model or a mark of the spec's own says so. The clause
`GoesOnOrFaults` is the Exceptions clause of each instruction's own rule; behind the check it names stand the
spec's decisions D3 and D4. -/

open Sys2Proof Sys2Proof.Machine

/-! ### Encoding -/

/-- R54: the opcode byte alone selects the operation; each row's mask and match, over the word
`opcode * 256 + operand`, and every other word is the last row of the table. -/
def Obligations.OpcodeByteSelectsOperation : Prop :=
  ∀ w : BitVec 16,
    (w &&& 0xFF00#16 = 0x0100#16 → decodeTableWord 16 w.toNat = some (.inc (w.extractLsb' 0 8))) ∧
    (w &&& 0xFF00#16 = 0x0200#16 → decodeTableWord 16 w.toNat = some (.dec (w.extractLsb' 0 8))) ∧
    (w &&& 0xFF00#16 = 0x0300#16 →
      decodeTableWord 16 w.toNat = some (.mov (w.extractLsb' 0 4) (w.extractLsb' 4 4))) ∧
    (w &&& 0xFF00#16 = 0x0400#16 → decodeTableWord 16 w.toNat = some (.movc (w.extractLsb' 0 8))) ∧
    (w &&& 0xFF00#16 = 0x0500#16 →
      decodeTableWord 16 w.toNat = some (.lsl (w.extractLsb' 0 4) (w.extractLsb' 4 4))) ∧
    (w &&& 0xFF00#16 = 0x0600#16 →
      decodeTableWord 16 w.toNat = some (.lsr (w.extractLsb' 0 4) (w.extractLsb' 4 4))) ∧
    (w &&& 0xFF00#16 = 0x0700#16 → decodeTableWord 16 w.toNat = some (.jmp (w.extractLsb' 0 8))) ∧
    (w &&& 0xFF00#16 = 0x0A00#16 → decodeTableWord 16 w.toNat = some (.jfe (w.extractLsb' 0 8))) ∧
    (w &&& 0xFF00#16 = 0x0B00#16 → decodeTableWord 16 w.toNat = some (.ret (w.extractLsb' 0 8))) ∧
    (w &&& 0xFF00#16 = 0x0C00#16 →
      decodeTableWord 16 w.toNat = some (.add (w.extractLsb' 0 4) (w.extractLsb' 4 4))) ∧
    (w &&& 0xFF00#16 = 0x0D00#16 →
      decodeTableWord 16 w.toNat = some (.sub (w.extractLsb' 0 4) (w.extractLsb' 4 4))) ∧
    (w &&& 0xFF00#16 = 0x0E00#16 →
      decodeTableWord 16 w.toNat = some (.xor (w.extractLsb' 0 4) (w.extractLsb' 4 4))) ∧
    (w &&& 0xFF00#16 = 0x0F00#16 →
      decodeTableWord 16 w.toNat = some (.or (w.extractLsb' 0 4) (w.extractLsb' 4 4))) ∧
    (w &&& 0xFF00#16 = 0x1000#16 →
      decodeTableWord 16 w.toNat = some (.inp (w.extractLsb' 0 4) (w.extractLsb' 4 4))) ∧
    (w &&& 0xFF00#16 = 0x1100#16 →
      decodeTableWord 16 w.toNat = some (.out (w.extractLsb' 0 4) (w.extractLsb' 4 4))) ∧
    ((w &&& 0xFF00#16 = 0x0000#16 ∨ w &&& 0xFF00#16 = 0x0800#16 ∨ w &&& 0xFF00#16 = 0x0900#16 ∨
        0x1200 ≤ w.toNat) →
      decodeTableWord 16 w.toNat = some (.nopUnassigned (w.extractLsb' 8 8) (w.extractLsb' 0 8)))

/-- Decode and encode agree (R50, R54, R59): whatever follows it in the store, an encoded well-formed
instruction decodes to itself, with every operand at every value. -/
def Obligations.DecodeInvertsEncode : Prop :=
  ∀ (i : Instr) (rest : List Byte), i.wf = true → decode (encode i ++ rest) = .ok (i, rest)

/-- R57, R58: every two-byte pattern is a well-formed instruction, of length two, and no bit of the pattern is
lost. -/
def Obligations.EncodeInvertsDecode : Prop :=
  ∀ opcode operand : Byte, ∃ i : Instr,
    decode [opcode, operand] = .ok (i, []) ∧ i.wf = true ∧ encode i = [opcode, operand]

/-- The records the spec writes out in R59, S6 and sections 2 and 3 of spec/95_test_vectors.md. -/
def Obligations.SpecRecordsDecode : Prop :=
  decode [0x04#8, 0x41#8] = .ok (.movc 0x41#8, []) ∧
  decode [0x11#8, 0x00#8] = .ok (.out 0#4 0#4, []) ∧
  decode [0x0B#8, 0x00#8] = .ok (.ret 0x00#8, []) ∧
  decode [0x01#8, 0x23#8] = .ok (.inc 0x23#8, []) ∧
  decode [0x03#8, 0x21#8] = .ok (.mov 1#4 2#4, []) ∧
  decode [0x05#8, 0xF4#8] = .ok (.lsl 4#4 15#4, []) ∧
  decode [0x07#8, 0xF8#8] = .ok (.jmp 0xF8#8, []) ∧
  decode [0x0C#8, 0xF2#8] = .ok (.add 2#4 15#4, []) ∧
  decode [0x10#8, 0xF3#8] = .ok (.inp 3#4 15#4, []) ∧
  decode [0x08#8, 0xFF#8] = .ok (.nopUnassigned 0x08#8 0xFF#8, [])

/-- R57: operand bits a format ignores have no effect: two records that differ in nothing else do the same. -/
def Obligations.IgnoredOperandBitsHaveNoEffect : Prop :=
  ∀ (opcode a b : Byte) (s : State),
    (opcode ∈ [0x05#8, 0x06#8, 0x10#8, 0x11#8] → a.toNat % 16 = b.toNat % 16 →
      exec (decodeRecord opcode a) s = exec (decodeRecord opcode b) s) ∧
    (opcode ∉ [0x03#8, 0x04#8, 0x05#8, 0x06#8, 0x07#8, 0x0A#8, 0x0C#8, 0x0D#8, 0x0E#8, 0x0F#8, 0x10#8, 0x11#8] →
      exec (decodeRecord opcode a) s = exec (decodeRecord opcode b) s)

/-! ### The instructions -/

/-- R70 and R71: INC and DEC, with any operand byte, only advance `pc`; at 253 and 254 they raise
ProgramFault. -/
def Obligations.IncAndDecOnlyAdvance : Prop :=
  (∀ operand : Byte, decodeRecord 0x01#8 operand = .inc operand) ∧
  (∀ operand : Byte, decodeRecord 0x02#8 operand = .dec operand) ∧
  (∀ (operand : Byte) (s : State), ∃ t, exec (.inc operand) s = .next t ∧
    OnlyPointer s t ∧ GoesOnOrFaults s t) ∧
  (∀ (operand : Byte) (s : State), ∃ t, exec (.dec operand) s = .next t ∧
    OnlyPointer s t ∧ GoesOnOrFaults s t)

/-- R72: every opcode in {0x00, 0x08, 0x09} or 0x12 to 0xFF, with any operand byte, only advances `pc`. -/
def Obligations.UnassignedOpcodesOnlyAdvance : Prop :=
  ∀ (opcode operand : Byte) (s : State),
    (opcode = 0x00#8 ∨ opcode = 0x08#8 ∨ opcode = 0x09#8 ∨ 0x12 ≤ opcode.toNat) →
    decodeRecord opcode operand = .nopUnassigned opcode operand ∧
    ∃ t, exec (.nopUnassigned opcode operand) s = .next t ∧ OnlyPointer s t ∧ GoesOnOrFaults s t

/-- R75: MOV copies `x[hi]` to `x[lo]` and changes no other register, no flag and no stream. -/
def Obligations.MovCopiesRegister : Prop :=
  (∀ lo hi : Nibble, decodeRecord 0x03#8 (BitVec.ofNat 8 (hi.toNat * 16 + lo.toNat)) = .mov lo hi) ∧
  ∀ (lo hi : Nibble) (s : State), ∃ t, exec (.mov lo hi) s = .next t ∧
    t.reg lo = s.reg hi ∧ OnlyRegister lo s t ∧ GoesOnOrFaults s t

/-- R76: MOVC writes the operand byte to `x[0]`, whatever its nibbles. -/
def Obligations.MovcLoadsRegisterZero : Prop :=
  (∀ imm : Byte, decodeRecord 0x04#8 imm = .movc imm) ∧
  ∀ (imm : Byte) (s : State), ∃ t, exec (.movc imm) s = .next t ∧
    t.reg 0#4 = imm ∧ OnlyRegister 0#4 s t ∧ GoesOnOrFaults s t

/-- R80: LSL, as a doubling modulo 256 and bit by bit, whatever the high nibble. -/
def Obligations.LslShiftsLeftByOne : Prop :=
  (∀ lo hi : Nibble, decodeRecord 0x05#8 (BitVec.ofNat 8 (hi.toNat * 16 + lo.toNat)) = .lsl lo hi) ∧
  ∀ (lo hi : Nibble) (s : State), ∃ t, exec (.lsl lo hi) s = .next t ∧
    (t.reg lo).toNat = 2 * (s.reg lo).toNat % 256 ∧
    (t.reg lo).getLsbD 0 = false ∧
    (∀ k, k < 7 → (t.reg lo).getLsbD (k + 1) = (s.reg lo).getLsbD k) ∧
    OnlyRegister lo s t ∧ GoesOnOrFaults s t

/-- R81: LSR, as a halving and bit by bit, with zero fill, whatever the high nibble. -/
def Obligations.LsrShiftsRightByOne : Prop :=
  (∀ lo hi : Nibble, decodeRecord 0x06#8 (BitVec.ofNat 8 (hi.toNat * 16 + lo.toNat)) = .lsr lo hi) ∧
  ∀ (lo hi : Nibble) (s : State), ∃ t, exec (.lsr lo hi) s = .next t ∧
    (t.reg lo).toNat = (s.reg lo).toNat / 2 ∧
    (t.reg lo).getLsbD 7 = false ∧
    (∀ k, k < 7 → (t.reg lo).getLsbD k = (s.reg lo).getLsbD (k + 1)) ∧
    OnlyRegister lo s t ∧ GoesOnOrFaults s t

/-- R85: JMP goes to its own offset plus the displacement, or raises ProgramFault where that lies outside 0
to 254. (`sext8` is the subject of `SignExtensionIsTwosComplement`.) -/
def Obligations.JmpGoesToOwnOffsetPlusDisplacement : Prop :=
  (∀ disp : Byte, decodeRecord 0x07#8 disp = .jmp disp) ∧
  ∀ (disp : Byte) (s : State), ∃ t, exec (.jmp disp) s = .next t ∧ OnlyPointer s t ∧
    (0 ≤ (s.pc : Int) + sext8 disp ∧ (s.pc : Int) + sext8 disp ≤ 254 →
      (t.pc : Int) = (s.pc : Int) + sext8 disp ∧ t.rs = s.rs ∧ t.finfo = s.finfo) ∧
    ((s.pc : Int) + sext8 disp < 0 ∨ 255 ≤ (s.pc : Int) + sext8 disp →
      TookFault s ((s.pc : Int) + sext8 disp) t)

/-- R86: JFE with `EOF` set is JMP bit for bit, with its checks; with `EOF` clear it goes on to the next record
whatever its operand. It leaves the flag. -/
def Obligations.JfeJumpsExactlyWhenEofSet : Prop :=
  (∀ disp : Byte, decodeRecord 0x0A#8 disp = .jfe disp) ∧
  ∀ (disp : Byte) (s : State), ∃ t, exec (.jfe disp) s = .next t ∧ OnlyPointer s t ∧
    (s.eof = true → exec (.jmp disp) s = .next t ∧
      (0 ≤ (s.pc : Int) + sext8 disp ∧ (s.pc : Int) + sext8 disp ≤ 254 →
        (t.pc : Int) = (s.pc : Int) + sext8 disp ∧ t.rs = s.rs ∧ t.finfo = s.finfo) ∧
      ((s.pc : Int) + sext8 disp < 0 ∨ 255 ≤ (s.pc : Int) + sext8 disp →
        TookFault s ((s.pc : Int) + sext8 disp) t)) ∧
    (s.eof = false → GoesOnOrFaults s t)

/-- R87: RET halts from every offset, with no fault; that `pc` is advanced by 2 is the spec's decision D9. -/
def Obligations.RetHaltsWithoutFault : Prop :=
  (∀ operand : Byte, decodeRecord 0x0B#8 operand = .ret operand) ∧
  ∀ (operand : Byte) (s : State), ∃ t, exec (.ret operand) s = .next t ∧
    OnlyPointer s t ∧ t.rs = .halted ∧ t.pc = s.pc + 2 ∧ t.finfo = s.finfo

/-- R90: ADD, modulo 256. -/
def Obligations.AddWrapsModulo256 : Prop :=
  (∀ lo hi : Nibble, decodeRecord 0x0C#8 (BitVec.ofNat 8 (hi.toNat * 16 + lo.toNat)) = .add lo hi) ∧
  ∀ (lo hi : Nibble) (s : State), ∃ t, exec (.add lo hi) s = .next t ∧
    (t.reg lo).toNat = ((s.reg lo).toNat + (s.reg hi).toNat) % 256 ∧
    OnlyRegister lo s t ∧ GoesOnOrFaults s t

/-- R91: SUB, destination minus source modulo 256. -/
def Obligations.SubWrapsModulo256 : Prop :=
  (∀ lo hi : Nibble, decodeRecord 0x0D#8 (BitVec.ofNat 8 (hi.toNat * 16 + lo.toNat)) = .sub lo hi) ∧
  ∀ (lo hi : Nibble) (s : State), ∃ t, exec (.sub lo hi) s = .next t ∧
    ((t.reg lo).toNat : Int) = (((s.reg lo).toNat : Int) - (s.reg hi).toNat) % 256 ∧
    OnlyRegister lo s t ∧ GoesOnOrFaults s t

/-- R92: XOR, bit by bit. -/
def Obligations.XorIsBitwise : Prop :=
  (∀ lo hi : Nibble, decodeRecord 0x0E#8 (BitVec.ofNat 8 (hi.toNat * 16 + lo.toNat)) = .xor lo hi) ∧
  ∀ (lo hi : Nibble) (s : State), ∃ t, exec (.xor lo hi) s = .next t ∧
    (∀ k, k < 8 → ((t.reg lo).getLsbD k = true ↔ (s.reg lo).getLsbD k ≠ (s.reg hi).getLsbD k)) ∧
    OnlyRegister lo s t ∧ GoesOnOrFaults s t

/-- R93: OR, bit by bit. -/
def Obligations.OrIsBitwise : Prop :=
  (∀ lo hi : Nibble, decodeRecord 0x0F#8 (BitVec.ofNat 8 (hi.toNat * 16 + lo.toNat)) = .or lo hi) ∧
  ∀ (lo hi : Nibble) (s : State), ∃ t, exec (.or lo hi) s = .next t ∧
    (∀ k, k < 8 → ((t.reg lo).getLsbD k = true ↔
      (s.reg lo).getLsbD k = true ∨ (s.reg hi).getLsbD k = true)) ∧
    OnlyRegister lo s t ∧ GoesOnOrFaults s t

/-- R100: IN takes the first byte of the stream, or sets `EOF` where the stream is already exhausted and leaves
the register; it never clears the flag (the spec's decision D7). -/
def Obligations.InReadsByteOrSetsEof : Prop :=
  (∀ lo hi : Nibble, decodeRecord 0x10#8 (BitVec.ofNat 8 (hi.toNat * 16 + lo.toNat)) = .inp lo hi) ∧
  ∀ (lo hi : Nibble) (s : State), ∃ t, exec (.inp lo hi) s = .next t ∧
    (∀ byte rest, s.din = byte :: rest →
      t.reg lo = byte ∧ t.din = rest ∧ t.eof = s.eof ∧ SameRegsExcept lo s t) ∧
    (s.din = [] → SameRegs s t ∧ t.din = [] ∧ t.eof = true) ∧
    t.dout = s.dout ∧ SameStore s t ∧ GoesOnOrFaults s t

/-- R101: OUT appends `x[lo]` to the output when `EOF` is clear and emits nothing when it is set. -/
def Obligations.OutEmitsUnlessEof : Prop :=
  (∀ lo hi : Nibble, decodeRecord 0x11#8 (BitVec.ofNat 8 (hi.toNat * 16 + lo.toNat)) = .out lo hi) ∧
  ∀ (lo hi : Nibble) (s : State), ∃ t, exec (.out lo hi) s = .next t ∧
    (s.eof = false → t.dout = s.dout ++ [s.reg lo]) ∧ (s.eof = true → t.dout = s.dout) ∧
    SameRegs s t ∧ t.eof = s.eof ∧ t.din = s.din ∧ SameStore s t ∧ GoesOnOrFaults s t

/-- R94: the six operations of the `alu`, in the numbers of the spec; the shifts do not use `b`; and `a` is
always `x[lo]`, `b` always `x[hi]`. -/
def Obligations.AluComputesTheSixOperations : Prop :=
  (∀ (lo hi : Nibble) (s : State),
    (∃ t, exec (.add lo hi) s = .next t ∧ t.reg lo = alu .add (s.reg lo) (s.reg hi)) ∧
    (∃ t, exec (.sub lo hi) s = .next t ∧ t.reg lo = alu .sub (s.reg lo) (s.reg hi)) ∧
    (∃ t, exec (.xor lo hi) s = .next t ∧ t.reg lo = alu .xor (s.reg lo) (s.reg hi)) ∧
    (∃ t, exec (.or lo hi) s = .next t ∧ t.reg lo = alu .or (s.reg lo) (s.reg hi)) ∧
    (∃ t, exec (.lsl lo hi) s = .next t ∧ t.reg lo = alu .lsl (s.reg lo) (s.reg hi)) ∧
    (∃ t, exec (.lsr lo hi) s = .next t ∧ t.reg lo = alu .lsr (s.reg lo) (s.reg hi))) ∧
  ∀ a b : Byte,
    (alu .add a b).toNat = (a.toNat + b.toNat) % 256 ∧
    ((alu .sub a b).toNat : Int) = ((a.toNat : Int) - b.toNat) % 256 ∧
    (alu .xor a b).toNat = a.toNat ^^^ b.toNat ∧
    (alu .or a b).toNat = a.toNat ||| b.toNat ∧
    (alu .lsl a b).toNat = (a.toNat <<< 1) &&& 0xFF ∧
    (alu .lsr a b).toNat = a.toNat >>> 1

/-- The identities of R95, which the spec marks as derived. -/
def Obligations.AluIdentitiesOfTheSpec : Prop :=
  ∀ a b c : Byte,
    alu .sub (alu .add a b) b = a ∧
    alu .add a a = alu .lsl a c ∧
    alu .xor (alu .xor a b) b = a ∧
    alu .lsr (alu .lsl a c) c = a &&& 0x7F#8 ∧
    alu .lsl (alu .lsr a c) c = a &&& 0xFE#8

/-- `sext_8` (spec/00_scope.md 7.1; general knowledge G1, log entry 5): two's complement, -128 to 127, each
value once. -/
def Obligations.SignExtensionIsTwosComplement : Prop :=
  (∀ v : Byte, v.toNat ≤ 127 → sext8 v = v.toNat) ∧
  (∀ v : Byte, 128 ≤ v.toNat → sext8 v = (v.toNat : Int) - 256) ∧
  ∀ d : Int, -128 ≤ d → d ≤ 127 → sext8 (BitVec.ofInt 8 d) = d

/-! ### Registers, flag and streams -/

/-- R10, R12: each of the sixteen registers holds what was last written to it, `x[0]` included, and a write
touches no other register. -/
def Obligations.RegistersHoldWhatIsWritten : Prop :=
  ∀ (s : State) (i r : Nibble) (v : Byte),
    (s.setReg i v).reg i = v ∧ (r ≠ i → (s.setReg i v).reg r = s.reg r)

/-- R11, the written column: an instruction changes no register outside it. -/
def Obligations.InstructionsWriteOnlyTheirRegister : Prop :=
  ∀ (i : Instr) (s t : State), exec i s = .next t →
    (writeSet i s).length ≤ 1 ∧ ∀ r, r ∉ writeSet i s → t.reg r = s.reg r

/-- R11, the read column: what an instruction does depends on no register outside it. Two states that agree in
everything else go to states that agree in everything else and in the register written. -/
def Obligations.InstructionsReadOnlyTheirRegisters : Prop :=
  ∀ (i : Instr) (s s' t t' : State), AgreeButRegs s s' → (∀ r, r ∈ readSet i s → s'.reg r = s.reg r) →
    exec i s = .next t → exec i s' = .next t' →
    AgreeButRegs t t' ∧ ∀ r, r ∈ writeSet i s → t'.reg r = t.reg r

/-- R16, R21: only IN changes the flag and the input; only OUT changes the output. -/
def Obligations.OnlyInAndOutTouchFlagAndStreams : Prop :=
  ∀ (i : Instr) (s t : State), exec i s = .next t →
    ((∀ lo hi, i ≠ .inp lo hi) → t.eof = s.eof ∧ t.din = s.din) ∧
    ((∀ lo hi, i ≠ .out lo hi) → t.dout = s.dout)

/-- R24 (e), R39, R40: over any run, the bytes taken are a prefix of the input in order, the output grows at its
end, and each step takes or emits at most one byte. -/
def Obligations.StreamsMoveInOrder : Prop :=
  ∀ (n : Nat) (s t : State), Steps n s t → ∃ taken emitted : List Byte,
    s.din = taken ++ t.din ∧ t.dout = s.dout ++ emitted ∧ taken.length + emitted.length ≤ n

/-- R102 (which the spec marks as derived) and R24 (d): once `EOF` is set it stays set and the machine emits
nothing more, however long it runs. -/
def Obligations.NothingIsEmittedAfterEof : Prop :=
  ∀ (n : Nat) (s t : State), Steps n s t → s.eof = true → t.eof = true ∧ t.dout = s.dout

/-! ### The step -/

/-- R62: where the bytes at `pc` decode to a well-formed instruction, a RUNNING machine's step is exec of that
instruction at that state, at any alignment (R34). -/
def Obligations.StepRunsDecodedInstruction : Prop :=
  ∀ (s : State) (i : Instr), s.rs = .running → s.pc ≤ 254 →
    decode [s.storeByte s.pc, s.storeByte (s.pc + 1)] = .ok (i, []) → i.wf = true →
    step s = exec i s

/-- R61: in READY and HALTED no state changes, and in FAULTED there is no next state. That READY and HALTED
answer the same state again and FAULTED answers a fault with the record is the model's choice (log entry 4). -/
def Obligations.NotRunningTakesNoStep : Prop :=
  ∀ s : State,
    (s.rs = .ready ∨ s.rs = .halted → step s = .next s) ∧
    (s.rs = .faulted → step s = .fault (.programFault s.finfo))

/-- A RUNNING machine whose record does not lie in the store stops with a fault of its own name. The stop is the
MODEL'S CHOICE, log entry 8 (DEDUCED): R31 and R35 only leave such a read undefined and say that the rules never
ask for one, and no reachable state does (R24 (a)). -/
def Obligations.FetchOutsideStoreStops : Prop :=
  ∀ s : State, s.rs = .running → 255 ≤ s.pc → step s = .fault (.fetchOutsideStore s.pc)

/-- R46, R68, R111: every step of a RUNNING machine completes; nothing but ProgramFault can end it badly. -/
def Obligations.EveryRunningStepCompletes : Prop :=
  ∀ s : State, s.rs = .running → s.pc ≤ 254 →
    ∃ t, step s = .next t ∧ (t.rs = .running ∨ t.rs = .halted ∨ t.rs = .faulted)

/-- R32, R30: fetch reads the two bytes at `pc` and no others: what the rest of the store holds changes
nothing. -/
def Obligations.StepReadsOnlyItsRecord : Prop :=
  ∀ s s' t : State, AgreeButStore s s' →
    s'.storeByte s.pc = s.storeByte s.pc → s'.storeByte (s.pc + 1) = s.storeByte (s.pc + 1) →
    step s = .next t → ∃ t', step s' = .next t' ∧ AgreeButStore t t'

/-- R41: no step writes the store, so over any run every offset reads as before. -/
def Obligations.StoreNeverChanges : Prop :=
  ∀ (n : Nat) (s t : State), Steps n s t → SameStore s t

/-- R64 and R65 (decisions D2, D3, D4, D9, D17): the mux's integer sum, selected by the mark `jump_taken` and
not by a comparison of pointers, and its three commits. -/
def Obligations.NextPointerIsSelectedAndChecked : Prop :=
  ∀ (i : Instr) (s t : State) (next : Int), exec i s = .next t →
    next = (if jumpTaken i s then (s.pc : Int) + displacement i else (s.pc : Int) + 2) →
    (haltNext i = true → t.rs = .halted ∧ (t.pc : Int) = next ∧ t.finfo = s.finfo) ∧
    (haltNext i = false → 0 ≤ next ∧ next ≤ 254 →
      (t.pc : Int) = next ∧ t.rs = s.rs ∧ t.finfo = s.finfo) ∧
    (haltNext i = false → next < 0 ∨ 255 ≤ next → TookFault s next t)

/-- R112: which instruction raises ProgramFault when, and the offender and target it records, in their
ranges. -/
def Obligations.ProgramFaultExactlyWhenTabled : Prop :=
  ∀ (i : Instr) (s t : State), s.rs = .running → s.pc ≤ 254 → exec i s = .next t →
    (t.rs = .faulted ↔ (faultColumns i s).1) ∧
    (t.rs = .faulted → t.finfo = some ⟨s.pc, (faultColumns i s).2⟩ ∧ t.pc = s.pc ∧
      (-128 ≤ (faultColumns i s).2 ∧ (faultColumns i s).2 ≤ -1 ∨
       255 ≤ (faultColumns i s).2 ∧ (faultColumns i s).2 ≤ 381))

/-- R66, R110 (decision D4): the fault changes what the offender's effects are in nothing: apart from `pc`,
`RS` and `FINFO` it leaves what the same instruction leaves at an offset where it goes on. -/
def Obligations.FaultKeepsTheOffendersEffects : Prop :=
  ∀ (i : Instr) (s t u : State) (p : Nat), exec i s = .next t → t.rs = .faulted →
    exec i (s.setPc p) = .next u →
    SameRegs u t ∧ t.eof = u.eof ∧ SameStreams u t ∧ SameStore u t

/-- The table of R17: what a step can do to the run state, and by which instruction; FAULTED is the spec's
decision D3. -/
def Obligations.RunStateTransitionsOfAStep : Prop :=
  ∀ s t : State, step s = .next t →
    (s.rs ≠ .running → t.rs = s.rs) ∧
    (s.rs = .running → t.rs = .running ∨ t.rs = .halted ∨ t.rs = .faulted) ∧
    (s.rs = .running → (t.rs = .halted ↔ s.storeByte s.pc = 0x0B#8))

/-! ### Invariants -/

/-- R24: every step keeps the invariants. -/
def Obligations.StepKeepsInvariants : Prop :=
  ∀ s t : State, s.Inv → step s = .next t → t.Inv

/-- R24: the invariants hold after reset. The empty input of `State.reset` is the model's choice (log entry 3). -/
def Obligations.ResetMeetsInvariants : Prop := State.reset.Inv

/-- R24 with R130, R131, R132, R36: the host's moves keep them too, in whatever order the host makes them; among
them U3, that a run event without a successful load and a ready input starts no run (log entry 10). -/
def Obligations.HostMovesKeepInvariants : Prop :=
  ∀ (s : State) (m : HostMove), s.Inv → (s.hostMove m).Inv

/-! ### Reset, launch and end of a run -/

/-- R23, R130 (decision D13): reset in any state, for any input of the new launch; and the reset state itself. -/
def Obligations.ResetRestoresEverything : Prop :=
  ResetWith State.reset.din State.reset ∧
  ∀ (s : State) (din0 : List Byte), ResetWith din0 (s.resetEvent din0)

/-- R131 (decision D12) with R132: after a successful load and with the input ready, the run event takes READY to
RUNNING at offset 0 and changes nothing else. In every other state it has no effect; that this is so in READY before
those duties is the model's way to write 'not delivered' (R118, U3; log entry 10). -/
def Obligations.RunEventStartsAtOffsetZero : Prop :=
  ∀ s : State,
    (s.rs = .ready ∧ s.loaded = true ∧ s.inputReady = true →
      s.runEvent.rs = .running ∧ s.runEvent.pc = 0 ∧ s.runEvent.finfo = s.finfo ∧ OnlyPointer s s.runEvent) ∧
    (s.rs ≠ .ready ∨ s.loaded = false ∨ s.inputReady = false → s.runEvent = s)

/-- R36 (decision D8): the load copies the program from offset 0 on, drops what does not fit, and leaves the
other offsets at free values (log entry 2). R36 and D8 say nothing of a load that fails: R118, R132 and U3 say only
that it starts no run, and the clause on it (every offset at a free value, `loaded` false) is the model's choice, log
entry 10. So is the bit `loaded` itself; that the last load decides it is log entry 11. Either load changes nothing
else. That a load acts in READY only is the model's choice, log entry 7. -/
def Obligations.LoadCopiesAndTruncates : Prop :=
  ∀ s : State,
    (s.rs = .ready → ∀ program : List Byte,
      (∀ a, a < 256 → ∀ b, program[a]? = some b → (s.load (some program)).storeByte a = b) ∧
      (∀ a, a < 256 → program.length ≤ a →
        (s.load (some program)).storeByte a = Config.residualByte (s.load (some program)).launch a) ∧
      s.load (some program) = s.load (some (program.take 256)) ∧ (s.load (some program)).loaded = true) ∧
    (s.rs = .ready → (s.load none).loaded = false ∧
      ∀ a, (s.load none).storeByte a = Config.residualByte (s.load none).launch a) ∧
    (∀ source, SameRegs s (s.load source) ∧ (s.load source).pc = s.pc ∧ (s.load source).eof = s.eof ∧
      (s.load source).rs = s.rs ∧ (s.load source).finfo = s.finfo ∧ SameStreams s (s.load source) ∧
      (s.load source).inputReady = s.inputReady) ∧
    (s.rs ≠ .ready → ∀ source, s.load source = s)

/-- R132, R118 (decision D16): after the boot duties the machine is RUNNING at offset 0 with the program and the
input in place and everything else as reset left it. Where a source could not be opened it is READY in the reset
state, with no run started. That the other duties are done even so (a program that could be opened is in the store,
a data source that could be opened makes the input ready), and the two bits that record which duties succeeded, are
the model's choice, log entry 10; the empty stream after a data source that could not be opened is log entry 3. -/
def Obligations.BootStartsOnlyASuccessfulLoad : Prop :=
  (∀ (s : State) (program din0 : List Byte),
    let t := s.boot (some program) (some din0)
    t.rs = .running ∧ t.pc = 0 ∧ (∀ r : Nibble, t.reg r = 0#8) ∧ t.eof = false ∧ t.finfo = none ∧
    t.din = din0 ∧ t.dout = [] ∧ t.loaded = true ∧ t.inputReady = true) ∧
  (∀ (s : State) (program : List Byte) (data : Option (List Byte)),
    ∀ a, a < 256 → ∀ b, program[a]? = some b → (s.boot (some program) data).storeByte a = b) ∧
  ∀ (s : State) (program data : Option (List Byte)), program = none ∨ data = none →
    ResetWith (data.getD []) (s.boot program data) ∧
    (s.boot program data).loaded = program.isSome ∧ (s.boot program data).inputReady = data.isSome

/-- R132, U3 (log entry 10): whatever the host does and the machine after it, no run starts without a successful
load and an input made ready, each by its last attempt since reset (the model's choice, log entry 11). A host move that leaves a machine RUNNING found it RUNNING, or is the run event after
both duties; and a step never makes a machine RUNNING, nor undoes a duty. -/
def Obligations.NoRunStartsWithoutBootDuties : Prop :=
  (∀ (s : State) (m : HostMove), (s.hostMove m).rs = .running →
    s.hostMove m = s ∧ s.rs = .running ∨ m = .run ∧ s.rs = .ready ∧ s.loaded = true ∧ s.inputReady = true) ∧
  ∀ s t : State, step s = .next t →
    (t.rs = .running → s.rs = .running) ∧ t.loaded = s.loaded ∧ t.inputReady = s.inputReady

/-- The host's placing of one record (log entry 6): the very next step runs exactly the placed instruction. -/
def Obligations.PlacedRecordRunsNext : Prop :=
  ∀ (s : State) (opcode operand : Byte),
    step (s.withFetchWord 16 (opcode.toNat * 256 + operand.toNat)) =
      exec (decodeRecord opcode operand) (s.withFetchWord 16 (opcode.toNat * 256 + operand.toNat))

/-- R68: a run in which no jump is taken ends, HALTED or FAULTED, within 128 steps, from any offset. -/
def Obligations.JumpFreeRunEndsWithin128Steps : Prop :=
  ∀ s : State, s.rs = .running → s.pc ≤ 254 →
    (∀ (k : Nat) (t : State) (i : Instr), Steps k s t → t.rs = .running → fetchInstr t = .ok i →
      jumpTaken i t = false) →
    ∃ k t, k ≤ 128 ∧ Steps k s t ∧ (t.EndedWell ∨ t.EndedInFault)

/-- R136, R64 (decision D17): a RUNNING machine at a JMP with displacement 0, or at a JFE with displacement 0
and `EOF` set, is in the same state after any number of steps. -/
def Obligations.SelfJumpRunsForever : Prop :=
  ∀ (s : State) (n : Nat), s.rs = .running → s.pc ≤ 254 →
    (s.storeByte s.pc = 0x07#8 ∨ s.storeByte s.pc = 0x0A#8 ∧ s.eof = true) →
    s.storeByte (s.pc + 1) = 0x00#8 → Steps n s s ∧ ∀ t, Steps n s t → t = s
end

