-- ==== Sys2Proof/Laws/State.lean ====
section
/-! SUPPORT. One lemma per field per named update of the state, so that no proof unfolds a record update. -/

namespace Sys2Proof.Machine

variable (s : State)

/-! ### `State.setReg` -/

@[simp] theorem State.setReg_x (i : Nibble) (v : Byte) : (s.setReg i v).x = s.x.set i.toNat v i.isLt := rfl
@[simp] theorem State.setReg_pc (i : Nibble) (v : Byte) : (s.setReg i v).pc = s.pc := rfl
@[simp] theorem State.setReg_eof (i : Nibble) (v : Byte) : (s.setReg i v).eof = s.eof := rfl
@[simp] theorem State.setReg_rs (i : Nibble) (v : Byte) : (s.setReg i v).rs = s.rs := rfl
@[simp] theorem State.setReg_finfo (i : Nibble) (v : Byte) : (s.setReg i v).finfo = s.finfo := rfl
@[simp] theorem State.setReg_ps (i : Nibble) (v : Byte) : (s.setReg i v).ps = s.ps := rfl
@[simp] theorem State.setReg_din (i : Nibble) (v : Byte) : (s.setReg i v).din = s.din := rfl
@[simp] theorem State.setReg_dout (i : Nibble) (v : Byte) : (s.setReg i v).dout = s.dout := rfl
@[simp] theorem State.setReg_launch (i : Nibble) (v : Byte) : (s.setReg i v).launch = s.launch := rfl
@[simp] theorem State.setReg_loaded (i : Nibble) (v : Byte) : (s.setReg i v).loaded = s.loaded := rfl
@[simp] theorem State.setReg_inputReady (i : Nibble) (v : Byte) : (s.setReg i v).inputReady = s.inputReady := rfl
@[simp] theorem State.setReg_storeByte (i : Nibble) (v : Byte) (a : Nat) : (s.setReg i v).storeByte a = s.storeByte a := rfl

/-! ### `State.emit` -/

@[simp] theorem State.emit_x (v : Byte) : (s.emit v).x = s.x := rfl
@[simp] theorem State.emit_pc (v : Byte) : (s.emit v).pc = s.pc := rfl
@[simp] theorem State.emit_eof (v : Byte) : (s.emit v).eof = s.eof := rfl
@[simp] theorem State.emit_rs (v : Byte) : (s.emit v).rs = s.rs := rfl
@[simp] theorem State.emit_finfo (v : Byte) : (s.emit v).finfo = s.finfo := rfl
@[simp] theorem State.emit_ps (v : Byte) : (s.emit v).ps = s.ps := rfl
@[simp] theorem State.emit_din (v : Byte) : (s.emit v).din = s.din := rfl
@[simp] theorem State.emit_dout (v : Byte) : (s.emit v).dout = s.dout ++ [v] := rfl
@[simp] theorem State.emit_launch (v : Byte) : (s.emit v).launch = s.launch := rfl
@[simp] theorem State.emit_loaded (v : Byte) : (s.emit v).loaded = s.loaded := rfl
@[simp] theorem State.emit_inputReady (v : Byte) : (s.emit v).inputReady = s.inputReady := rfl
@[simp] theorem State.emit_reg (v : Byte) (r : Nibble) : (s.emit v).reg r = s.reg r := rfl
@[simp] theorem State.emit_storeByte (v : Byte) (a : Nat) : (s.emit v).storeByte a = s.storeByte a := rfl

/-! ### `State.setPc` -/

@[simp] theorem State.setPc_x (target : Nat) : (s.setPc target).x = s.x := rfl
@[simp] theorem State.setPc_pc (target : Nat) : (s.setPc target).pc = target := rfl
@[simp] theorem State.setPc_eof (target : Nat) : (s.setPc target).eof = s.eof := rfl
@[simp] theorem State.setPc_rs (target : Nat) : (s.setPc target).rs = s.rs := rfl
@[simp] theorem State.setPc_finfo (target : Nat) : (s.setPc target).finfo = s.finfo := rfl
@[simp] theorem State.setPc_ps (target : Nat) : (s.setPc target).ps = s.ps := rfl
@[simp] theorem State.setPc_din (target : Nat) : (s.setPc target).din = s.din := rfl
@[simp] theorem State.setPc_dout (target : Nat) : (s.setPc target).dout = s.dout := rfl
@[simp] theorem State.setPc_launch (target : Nat) : (s.setPc target).launch = s.launch := rfl
@[simp] theorem State.setPc_loaded (target : Nat) : (s.setPc target).loaded = s.loaded := rfl
@[simp] theorem State.setPc_inputReady (target : Nat) : (s.setPc target).inputReady = s.inputReady := rfl
@[simp] theorem State.setPc_reg (target : Nat) (r : Nibble) : (s.setPc target).reg r = s.reg r := rfl
@[simp] theorem State.setPc_storeByte (target : Nat) (a : Nat) : (s.setPc target).storeByte a = s.storeByte a := rfl

/-! ### `State.raiseProgramFault` -/

@[simp] theorem State.raiseProgramFault_x (target : Int) : (s.raiseProgramFault target).x = s.x := rfl
@[simp] theorem State.raiseProgramFault_pc (target : Int) : (s.raiseProgramFault target).pc = s.pc := rfl
@[simp] theorem State.raiseProgramFault_eof (target : Int) : (s.raiseProgramFault target).eof = s.eof := rfl
@[simp] theorem State.raiseProgramFault_rs (target : Int) : (s.raiseProgramFault target).rs = RunState.faulted := rfl
@[simp] theorem State.raiseProgramFault_finfo (target : Int) : (s.raiseProgramFault target).finfo = some ⟨s.pc, target⟩ := rfl
@[simp] theorem State.raiseProgramFault_ps (target : Int) : (s.raiseProgramFault target).ps = s.ps := rfl
@[simp] theorem State.raiseProgramFault_din (target : Int) : (s.raiseProgramFault target).din = s.din := rfl
@[simp] theorem State.raiseProgramFault_dout (target : Int) : (s.raiseProgramFault target).dout = s.dout := rfl
@[simp] theorem State.raiseProgramFault_launch (target : Int) : (s.raiseProgramFault target).launch = s.launch := rfl
@[simp] theorem State.raiseProgramFault_loaded (target : Int) : (s.raiseProgramFault target).loaded = s.loaded := rfl
@[simp] theorem State.raiseProgramFault_inputReady (target : Int) : (s.raiseProgramFault target).inputReady = s.inputReady := rfl
@[simp] theorem State.raiseProgramFault_reg (target : Int) (r : Nibble) : (s.raiseProgramFault target).reg r = s.reg r := rfl
@[simp] theorem State.raiseProgramFault_storeByte (target : Int) (a : Nat) : (s.raiseProgramFault target).storeByte a = s.storeByte a := rfl

/-! ### `State.halt` -/

@[simp] theorem State.halt_x : (s.halt).x = s.x := rfl
@[simp] theorem State.halt_pc : (s.halt).pc = s.pc + 2 := rfl
@[simp] theorem State.halt_eof : (s.halt).eof = s.eof := rfl
@[simp] theorem State.halt_rs : (s.halt).rs = RunState.halted := rfl
@[simp] theorem State.halt_finfo : (s.halt).finfo = s.finfo := rfl
@[simp] theorem State.halt_ps : (s.halt).ps = s.ps := rfl
@[simp] theorem State.halt_din : (s.halt).din = s.din := rfl
@[simp] theorem State.halt_dout : (s.halt).dout = s.dout := rfl
@[simp] theorem State.halt_launch : (s.halt).launch = s.launch := rfl
@[simp] theorem State.halt_loaded : (s.halt).loaded = s.loaded := rfl
@[simp] theorem State.halt_inputReady : (s.halt).inputReady = s.inputReady := rfl
@[simp] theorem State.halt_reg (r : Nibble) : (s.halt).reg r = s.reg r := rfl
@[simp] theorem State.halt_storeByte (a : Nat) : (s.halt).storeByte a = s.storeByte a := rfl

/-! ### `State.setEof` -/

@[simp] theorem State.setEof_x : (s.setEof).x = s.x := rfl
@[simp] theorem State.setEof_pc : (s.setEof).pc = s.pc := rfl
@[simp] theorem State.setEof_eof : (s.setEof).eof = true := rfl
@[simp] theorem State.setEof_rs : (s.setEof).rs = s.rs := rfl
@[simp] theorem State.setEof_finfo : (s.setEof).finfo = s.finfo := rfl
@[simp] theorem State.setEof_ps : (s.setEof).ps = s.ps := rfl
@[simp] theorem State.setEof_din : (s.setEof).din = s.din := rfl
@[simp] theorem State.setEof_dout : (s.setEof).dout = s.dout := rfl
@[simp] theorem State.setEof_launch : (s.setEof).launch = s.launch := rfl
@[simp] theorem State.setEof_loaded : (s.setEof).loaded = s.loaded := rfl
@[simp] theorem State.setEof_inputReady : (s.setEof).inputReady = s.inputReady := rfl
@[simp] theorem State.setEof_reg (r : Nibble) : (s.setEof).reg r = s.reg r := rfl
@[simp] theorem State.setEof_storeByte (a : Nat) : (s.setEof).storeByte a = s.storeByte a := rfl

/-! ### The register file -/

theorem State.setReg_reg (i r : Nibble) (v : Byte) :
    (s.setReg i v).reg r = if r = i then v else s.reg r := by
  simp only [State.reg, State.setReg_x, Vector.getElem_set]
  by_cases h : r = i
  · simp [h]
  · rw [if_neg h, if_neg (fun e => h (BitVec.eq_of_toNat_eq e.symm))]

@[simp] theorem State.setReg_reg_self (i : Nibble) (v : Byte) : (s.setReg i v).reg i = v := by
  simp [State.setReg_reg]

theorem State.setReg_reg_ne {i r : Nibble} (h : r ≠ i) (v : Byte) :
    (s.setReg i v).reg r = s.reg r := by
  simp [State.setReg_reg, h]

/-! ### The reset state -/

@[simp] theorem State.reset_reg (r : Nibble) : State.reset.reg r = 0#8 := by
  simp [State.reg, State.reset]

@[simp] theorem State.reset_pc : State.reset.pc = 0 := rfl
@[simp] theorem State.reset_eof : State.reset.eof = false := rfl
@[simp] theorem State.reset_rs : State.reset.rs = .ready := rfl
@[simp] theorem State.reset_finfo : State.reset.finfo = none := rfl
@[simp] theorem State.reset_ps : State.reset.ps = [] := rfl
@[simp] theorem State.reset_dout : State.reset.dout = [] := rfl
@[simp] theorem State.reset_loaded : State.reset.loaded = false := rfl
@[simp] theorem State.reset_inputReady : State.reset.inputReady = false := rfl

end Sys2Proof.Machine
end

