-- ==== Sys2Proof/Laws/Commit.lean ====
section
/-! SUPPORT. What committing the next instruction pointer can do (spec/40_cycle.md R64, R65), said once. -/

namespace Sys2Proof.Machine

variable (s : State)

/-- The two outcomes of the bounds check. -/
theorem State.commit_cases (next : Int) :
    (∃ p : Nat, (p : Int) = next ∧ p ≤ 254 ∧ s.commit next = s.setPc p) ∨
    ((next < 0 ∨ 254 < next) ∧ s.commit next = s.raiseProgramFault next) := by
  by_cases h : 0 ≤ next ∧ next ≤ 254
  · exact .inl ⟨next.toNat, Int.toNat_of_nonneg h.1, by omega, if_pos h⟩
  · exact .inr ⟨by omega, if_neg h⟩

theorem State.commit_inside {next : Int} (h : 0 ≤ next ∧ next ≤ 254) :
    s.commit next = s.setPc next.toNat := if_pos h

theorem State.commit_outside {next : Int} (h : next < 0 ∨ 254 < next) :
    s.commit next = s.raiseProgramFault next :=
  if_neg fun k : 0 ≤ next ∧ next ≤ 254 => by omega

theorem State.advance_inside (h : s.pc ≤ 252) : s.advance = s.setPc (s.pc + 2) := by
  have : nextPointer s.pc false 0 = ((s.pc + 2 : Nat) : Int) := rfl
  rw [State.advance, this, State.commit_inside s (by omega), Int.toNat_natCast]

theorem State.advance_outside (h : 253 ≤ s.pc) :
    s.advance = s.raiseProgramFault ((s.pc : Int) + 2) :=
  State.commit_outside s (.inr (show (254 : Int) < (s.pc : Int) + 2 by omega))

theorem State.jumpBy_eq (disp : Int) : s.jumpBy disp = s.commit ((s.pc : Int) + disp) := rfl

/-! ### What a commit leaves alone, whichever way it goes -/

@[simp] theorem State.commit_reg (next : Int) (r : Nibble) : (s.commit next).reg r = s.reg r := by
  unfold State.commit; split <;> rfl
@[simp] theorem State.commit_x (next : Int) : (s.commit next).x = s.x := by
  unfold State.commit; split <;> rfl
@[simp] theorem State.commit_eof (next : Int) : (s.commit next).eof = s.eof := by
  unfold State.commit; split <;> rfl
@[simp] theorem State.commit_ps (next : Int) : (s.commit next).ps = s.ps := by
  unfold State.commit; split <;> rfl
@[simp] theorem State.commit_din (next : Int) : (s.commit next).din = s.din := by
  unfold State.commit; split <;> rfl
@[simp] theorem State.commit_dout (next : Int) : (s.commit next).dout = s.dout := by
  unfold State.commit; split <;> rfl
@[simp] theorem State.commit_launch (next : Int) : (s.commit next).launch = s.launch := by
  unfold State.commit; split <;> rfl
@[simp] theorem State.commit_loaded (next : Int) : (s.commit next).loaded = s.loaded := by
  unfold State.commit; split <;> rfl
@[simp] theorem State.commit_inputReady (next : Int) : (s.commit next).inputReady = s.inputReady := by
  unfold State.commit; split <;> rfl
@[simp] theorem State.commit_storeByte (next : Int) (a : Nat) :
    (s.commit next).storeByte a = s.storeByte a := by
  unfold State.commit; split <;> rfl

@[simp] theorem State.advance_reg (r : Nibble) : s.advance.reg r = s.reg r := State.commit_reg ..
@[simp] theorem State.advance_x : s.advance.x = s.x := State.commit_x ..
@[simp] theorem State.advance_eof : s.advance.eof = s.eof := State.commit_eof ..
@[simp] theorem State.advance_ps : s.advance.ps = s.ps := State.commit_ps ..
@[simp] theorem State.advance_din : s.advance.din = s.din := State.commit_din ..
@[simp] theorem State.advance_dout : s.advance.dout = s.dout := State.commit_dout ..
@[simp] theorem State.advance_launch : s.advance.launch = s.launch := State.commit_launch ..
@[simp] theorem State.advance_loaded : s.advance.loaded = s.loaded := State.commit_loaded ..
@[simp] theorem State.advance_inputReady : s.advance.inputReady = s.inputReady := State.commit_inputReady ..
@[simp] theorem State.advance_storeByte (a : Nat) : s.advance.storeByte a = s.storeByte a :=
  State.commit_storeByte ..

/-! ### The displacement -/

/-- A displacement lies in -128 to 127 (R53). -/
theorem sext8_bounds (v : Byte) : -128 ≤ sext8 v ∧ sext8 v ≤ 127 := by
  have := v.isLt
  unfold sext8
  split <;> omega

end Sys2Proof.Machine
end

