-- ==== Sys2Proof/Laws/Exec.lean ====
section
/-! SUPPORT. What executing an instruction can do, said once per meaning and once for all of them. -/

namespace Sys2Proof.Machine

variable (s : State)

/-! ### One equation per constructor -/

theorem exec_inc (operand : Byte) : exec (.inc operand) s = .next s.advance := rfl
theorem exec_dec (operand : Byte) : exec (.dec operand) s = .next s.advance := rfl
theorem exec_mov (lo hi : Nibble) :
    exec (.mov lo hi) s = .next (s.setReg lo (s.reg hi)).advance := rfl
theorem exec_movc (imm : Byte) : exec (.movc imm) s = .next (s.setReg 0#4 imm).advance := rfl
theorem exec_lsl (lo hi : Nibble) :
    exec (.lsl lo hi) s = .next (s.setReg lo (s.reg lo <<< 1)).advance := rfl
theorem exec_lsr (lo hi : Nibble) :
    exec (.lsr lo hi) s = .next (s.setReg lo (s.reg lo >>> 1)).advance := rfl
theorem exec_jmp (disp : Byte) : exec (.jmp disp) s = .next (s.jumpBy (sext8 disp)) := rfl
theorem exec_jfe_set (disp : Byte) (h : s.eof = true) :
    exec (.jfe disp) s = .next (s.jumpBy (sext8 disp)) := by
  simp [exec, execJfe, State.jfeTaken, h]
theorem exec_jfe_clear (disp : Byte) (h : s.eof = false) :
    exec (.jfe disp) s = .next s.advance := by
  simp [exec, execJfe, State.jfeTaken, h]
theorem exec_ret (operand : Byte) : exec (.ret operand) s = .next s.halt := rfl
theorem exec_add (lo hi : Nibble) :
    exec (.add lo hi) s = .next (s.setReg lo (s.reg lo + s.reg hi)).advance := rfl
theorem exec_sub (lo hi : Nibble) :
    exec (.sub lo hi) s = .next (s.setReg lo (s.reg lo - s.reg hi)).advance := rfl
theorem exec_xor (lo hi : Nibble) :
    exec (.xor lo hi) s = .next (s.setReg lo (s.reg lo ^^^ s.reg hi)).advance := rfl
theorem exec_or (lo hi : Nibble) :
    exec (.or lo hi) s = .next (s.setReg lo (s.reg lo ||| s.reg hi)).advance := rfl
theorem exec_inp_byte (lo hi : Nibble) {byte : Byte} {rest : List Byte} (h : s.din = byte :: rest) :
    exec (.inp lo hi) s = .next (({ s with din := rest } : State).setReg lo byte).advance := by
  simp [exec, execInp, State.inTake, h]
theorem exec_inp_dry (lo hi : Nibble) (h : s.din = []) :
    exec (.inp lo hi) s = .next s.setEof.advance := by
  simp [exec, execInp, State.inTake, h]
theorem exec_out_open (lo hi : Nibble) (h : s.eof = false) :
    exec (.out lo hi) s = .next (s.emit (s.reg lo)).advance := by
  simp [exec, execOut, State.outputOpen, h]
theorem exec_out_shut (lo hi : Nibble) (h : s.eof = true) :
    exec (.out lo hi) s = .next s.advance := by
  simp [exec, execOut, State.outputOpen, h]
theorem exec_nopUnassigned (opcode operand : Byte) :
    exec (.nopUnassigned opcode operand) s = .next s.advance := rfl

/-! ### All instructions at once -/

/-- The state an instruction has made when its commit comes: its register, flag and stream effects
(spec/40_cycle.md R62, the `execute` part). -/
def executed (i : Instr) (s : State) : State :=
  match i with
  | .mov lo hi => s.setReg lo (s.reg hi)
  | .movc imm => s.setReg 0#4 imm
  | .lsl lo _ => s.setReg lo (s.reg lo <<< 1)
  | .lsr lo _ => s.setReg lo (s.reg lo >>> 1)
  | .add lo hi => s.setReg lo (s.reg lo + s.reg hi)
  | .sub lo hi => s.setReg lo (s.reg lo - s.reg hi)
  | .xor lo hi => s.setReg lo (s.reg lo ^^^ s.reg hi)
  | .or lo hi => s.setReg lo (s.reg lo ||| s.reg hi)
  | .inp lo _ =>
    match s.din with
    | byte :: rest => ({ s with din := rest } : State).setReg lo byte
    | [] => s.setEof
  | .out lo _ => if s.eof then s else s.emit (s.reg lo)
  | _ => s

/-- The next pointer an instruction asks for (R64). -/
def asked (i : Instr) (s : State) : Int :=
  match i with
  | .jmp disp => (s.pc : Int) + sext8 disp
  | .jfe disp => if s.eof then (s.pc : Int) + sext8 disp else (s.pc : Int) + 2
  | _ => (s.pc : Int) + 2

/-- The state after an instruction: RET halts, every other one commits the pointer it asked for after its
effects (R65). -/
def committed (i : Instr) (s : State) : State :=
  match i with
  | .ret _ => s.halt
  | _ => (executed i s).commit (asked i s)

theorem exec_eq (i : Instr) : exec i s = .next (committed i s) := by
  cases i with
  | jfe disp => cases h : s.eof <;> simp [exec_jfe_set, exec_jfe_clear, h, committed, executed, asked] <;> rfl
  | inp lo hi =>
    cases h : s.din with
    | nil => rw [exec_inp_dry s lo hi h]; simp only [committed, executed, h]; rfl
    | cons byte rest => rw [exec_inp_byte s lo hi h]; simp only [committed, executed, h]; rfl
  | out lo hi => cases h : s.eof <;> simp [exec_out_open, exec_out_shut, h, committed, executed, asked] <;> rfl
  | _ => rfl

/-- The inversion lemma: where a next state comes from. -/
theorem exec_cases {i : Instr} {s t : State} (h : exec i s = .next t) :
    (∃ operand, i = .ret operand ∧ t = s.halt) ∨
    ((∀ operand, i ≠ .ret operand) ∧ t = (executed i s).commit (asked i s)) := by
  have ht : t = committed i s := Host.Outcome.next.inj (h.symm.trans (exec_eq s i))
  cases i with
  | ret operand => exact .inl ⟨operand, rfl, ht⟩
  | _ => exact .inr ⟨fun _ k => (nomatch k), ht⟩

/-- What no instruction's effects touch before the commit. -/
theorem executed_frame (i : Instr) :
    (executed i s).pc = s.pc ∧ (executed i s).rs = s.rs ∧ (executed i s).finfo = s.finfo ∧
    (executed i s).ps = s.ps ∧ (executed i s).launch = s.launch ∧
    (executed i s).loaded = s.loaded ∧ (executed i s).inputReady = s.inputReady := by
  cases i with
  | inp lo hi => cases h : s.din <;> simp [executed, h]
  | out lo hi => cases h : s.eof <;> simp [executed, h]
  | _ => simp [executed]

/-- The pointer asked for lies within reach of the instruction (R18). -/
theorem asked_bounds (i : Instr) :
    (s.pc : Int) - 128 ≤ asked i s ∧ asked i s ≤ (s.pc : Int) + 127 := by
  cases i with
  | jmp disp => have := sext8_bounds disp; simp only [asked]; omega
  | jfe disp => have := sext8_bounds disp; simp only [asked]; split <;> omega
  | _ => simp only [asked]; omega

/-! ### A step -/

/-- Whatever a RUNNING machine's step answers as a next state, exec answered for the fetched record. -/
theorem step_running {t : State} (hr : s.rs = .running) (h : step s = .next t) :
    s.pc ≤ 254 ∧
    exec (decodeRecord (s.storeByte s.pc) (s.storeByte (s.pc + 1))) s = .next t := by
  by_cases hp : s.pc ≤ 254
  · refine ⟨hp, ?_⟩
    simpa [step, hr, fetchInstr, hp] using h
  · simp [step, hr, fetchInstr, hp] at h

/-- A machine that is not RUNNING keeps its state, or is FAULTED and answers no next state. -/
theorem step_idle {t : State} (hr : s.rs ≠ .running) (h : step s = .next t) : t = s := by
  rw [step, if_neg hr] at h
  unfold notRunning at h
  cases hs : s.rs <;> rw [hs] at h <;> simp_all

end Sys2Proof.Machine
end

