-- ==== Sys2Proof/Laws/PerInstr.lean ====
section
/-! SUPPORT. The family RecordShape, one lemma per constructor: an instruction is one two-byte record whose
opcode is assigned exactly when it is not the NOP_UNASSIGNED row (spec/30_encoding.md R50, R54, R55). -/

namespace Sys2Proof.Laws

/-- Whether an instruction is of the last row of the opcode table. -/
def isUnassigned : Instr → Bool
  | .nopUnassigned _ _ => true
  | _ => false

/-- The family's statement about an instruction as syntax. -/
def RecordShape.Statement (i : Instr) : Prop :=
  i.wf = true →
    (encode i).length = 2 ∧ (isUnassigned i = false ↔ (encode i).head? ∈ assignedOpcodes.map some)

theorem RecordShape.inc (operand : Byte) : RecordShape.Statement (.inc operand) :=
  fun _ => ⟨rfl, by simp [isUnassigned, encode, opcodeOf, assignedOpcodes]⟩
theorem RecordShape.dec (operand : Byte) : RecordShape.Statement (.dec operand) :=
  fun _ => ⟨rfl, by simp [isUnassigned, encode, opcodeOf, assignedOpcodes]⟩
theorem RecordShape.mov (lo hi : Nibble) : RecordShape.Statement (.mov lo hi) :=
  fun _ => ⟨rfl, by simp [isUnassigned, encode, opcodeOf, assignedOpcodes]⟩
theorem RecordShape.movc (imm : Byte) : RecordShape.Statement (.movc imm) :=
  fun _ => ⟨rfl, by simp [isUnassigned, encode, opcodeOf, assignedOpcodes]⟩
theorem RecordShape.lsl (lo hi : Nibble) : RecordShape.Statement (.lsl lo hi) :=
  fun _ => ⟨rfl, by simp [isUnassigned, encode, opcodeOf, assignedOpcodes]⟩
theorem RecordShape.lsr (lo hi : Nibble) : RecordShape.Statement (.lsr lo hi) :=
  fun _ => ⟨rfl, by simp [isUnassigned, encode, opcodeOf, assignedOpcodes]⟩
theorem RecordShape.jmp (disp : Byte) : RecordShape.Statement (.jmp disp) :=
  fun _ => ⟨rfl, by simp [isUnassigned, encode, opcodeOf, assignedOpcodes]⟩
theorem RecordShape.jfe (disp : Byte) : RecordShape.Statement (.jfe disp) :=
  fun _ => ⟨rfl, by simp [isUnassigned, encode, opcodeOf, assignedOpcodes]⟩
theorem RecordShape.ret (operand : Byte) : RecordShape.Statement (.ret operand) :=
  fun _ => ⟨rfl, by simp [isUnassigned, encode, opcodeOf, assignedOpcodes]⟩
theorem RecordShape.add (lo hi : Nibble) : RecordShape.Statement (.add lo hi) :=
  fun _ => ⟨rfl, by simp [isUnassigned, encode, opcodeOf, assignedOpcodes]⟩
theorem RecordShape.sub (lo hi : Nibble) : RecordShape.Statement (.sub lo hi) :=
  fun _ => ⟨rfl, by simp [isUnassigned, encode, opcodeOf, assignedOpcodes]⟩
theorem RecordShape.xor (lo hi : Nibble) : RecordShape.Statement (.xor lo hi) :=
  fun _ => ⟨rfl, by simp [isUnassigned, encode, opcodeOf, assignedOpcodes]⟩
theorem RecordShape.or (lo hi : Nibble) : RecordShape.Statement (.or lo hi) :=
  fun _ => ⟨rfl, by simp [isUnassigned, encode, opcodeOf, assignedOpcodes]⟩
theorem RecordShape.inp (lo hi : Nibble) : RecordShape.Statement (.inp lo hi) :=
  fun _ => ⟨rfl, by simp [isUnassigned, encode, opcodeOf, assignedOpcodes]⟩
theorem RecordShape.out (lo hi : Nibble) : RecordShape.Statement (.out lo hi) :=
  fun _ => ⟨rfl, by simp [isUnassigned, encode, opcodeOf, assignedOpcodes]⟩
theorem RecordShape.nopUnassigned (opcode operand : Byte) :
    RecordShape.Statement (.nopUnassigned opcode operand) := fun h => by
  refine ⟨rfl, ?_⟩
  simpa [isUnassigned, encode, opcodeOf, Instr.wf] using h

end Sys2Proof.Laws
end

