-- ==== Sys2Proof/Laws/Store.lean ====
section
/-! SUPPORT. The program store: every operation keeps the canonical form, and a read sees the last write. -/

namespace Sys2Proof.Machine

theorem Memory.read_write (m : Memory) (a b : Nat) (v : Byte) :
    Memory.read (Memory.write m a v) b = if b = a then some v else Memory.read m b := by
  induction m with
  | nil => simp [Memory.write, Memory.read]
  | cons cell m ih =>
    obtain ⟨c, w⟩ := cell
    simp only [Memory.write]
    split
    · simp [Memory.read]
    · split
      · subst_vars
        simp only [Memory.read]
        split <;> rfl
      · simp only [Memory.read, ih]
        grind

theorem Memory.wfFrom_write {m : Memory} {low a : Nat} (v : Byte) (h : Memory.wfFrom low m = true)
    (hl : low ≤ a) (ha : a < 256) : Memory.wfFrom low (Memory.write m a v) = true := by
  induction m generalizing low with
  | nil => simp [Memory.write, Memory.wfFrom, Config.programMemorySize, hl, ha]
  | cons cell m ih =>
    obtain ⟨c, w⟩ := cell
    simp only [Memory.wfFrom, Config.programMemorySize, Bool.and_eq_true, decide_eq_true_eq] at h
    simp only [Memory.write]
    split
    · simp only [Memory.wfFrom, Config.programMemorySize, Bool.and_eq_true, decide_eq_true_eq]
      exact ⟨⟨hl, ha⟩, ⟨by omega, by omega⟩, h.2⟩
    · split
      · subst_vars
        simp only [Memory.wfFrom, Config.programMemorySize, Bool.and_eq_true, decide_eq_true_eq]
        exact ⟨⟨hl, ha⟩, h.2⟩
      · simp only [Memory.wfFrom, Config.programMemorySize, Bool.and_eq_true, decide_eq_true_eq]
        exact ⟨h.1, ih h.2 (by omega)⟩

/-- A write inside the store keeps the canonical form. -/
theorem Memory.wf_write {m : Memory} {a : Nat} (v : Byte) (h : m.wf = true) (ha : a < 256) :
    (Memory.write m a v).wf = true := Memory.wfFrom_write v h (Nat.zero_le a) ha

/-- So does writing several bytes that all lie in the store. -/
theorem Memory.wf_writeBytes {m : Memory} {a : Nat} (bytes : List Byte) (h : m.wf = true)
    (ha : a + bytes.length ≤ 256) : (Memory.writeBytes m a bytes).wf = true := by
  induction bytes generalizing m a with
  | nil => exact h
  | cons b bs ih =>
    simp only [List.length_cons] at ha
    exact ih (Memory.wf_write b h (by omega)) (by omega)

theorem Memory.wfFrom_layout (k : Nat) (bytes : List Byte) (h : k + bytes.length ≤ 256) :
    Memory.wfFrom k (Memory.layout k bytes) = true := by
  induction bytes generalizing k with
  | nil => rfl
  | cons b bs ih =>
    simp only [List.length_cons] at h
    simp only [Memory.layout, Memory.wfFrom, Config.programMemorySize, Bool.and_eq_true,
      decide_eq_true_eq]
    exact ⟨⟨Nat.le_refl k, by omega⟩, ih (k + 1) (by omega)⟩

/-- What the load lays out is in canonical form. -/
theorem Memory.wf_layout (bytes : List Byte) (h : bytes.length ≤ 256) :
    (Memory.layout 0 bytes).wf = true := Memory.wfFrom_layout 0 bytes (by omega)

/-- The store of the reset state is in canonical form. -/
theorem Memory.wf_reset : State.reset.ps.wf = true := rfl

/-- A read of a layout: the byte there, or nothing outside it. -/
theorem Memory.read_layout (k : Nat) (bytes : List Byte) (a : Nat) :
    Memory.read (Memory.layout k bytes) a = if a < k then none else bytes[a - k]? := by
  induction bytes generalizing k with
  | nil => simp [Memory.layout, Memory.read]
  | cons b bs ih =>
    simp only [Memory.layout, Memory.read, ih]
    by_cases h : a = k
    · simp [h]
    · by_cases h' : a < k
      · simp [h, h', Nat.lt_succ_of_lt h']
      · obtain ⟨d, rfl⟩ : ∃ d, a = k + 1 + d := ⟨a - k - 1, by omega⟩
        rw [if_neg h, if_neg (by omega), if_neg (by omega)]
        simp only [show k + 1 + d - k = d + 1 by omega, Nat.add_sub_cancel_left]
        simp

/-- Placing a record keeps the store canonical: it goes where a whole record lies in the store. -/
theorem Memory.wf_placeRecord {s : State} (h : s.ps.wf = true) (nbits w : Nat) :
    (s.withFetchWord nbits w).ps.wf = true := by
  have : fetchOffset s.pc ≤ 254 := by unfold fetchOffset; split <;> omega
  exact Memory.wf_writeBytes _ h (by simp only [tableWordBytes, List.length_cons, List.length_nil]; omega)

end Sys2Proof.Machine
end

