-- ==== Sys2Proof/Tests/Slice0.lean ====
section
/-! SUPPORT. The model's own tests: the WellFormed smoke, records written out from the encoding tables, one-step
vectors of spec/95_test_vectors.md, and for each statement with hypotheses a state and operands that meet
them. -/

namespace Sys2Proof.Tests

open Sys2Proof.Machine

/-- A RUNNING machine at offset `pc` with one record there and everything else as after reset. -/
def atOffset (pc : Nat) (opcode operand : Byte) : State :=
  { State.reset with
    pc := pc
    rs := .running
    ps := [(pc, opcode), (pc + 1, operand)]
    loaded := true
    inputReady := true }

/-- A machine that the host has reset, loaded with a program that only returns, and given its input. -/
def bootedReady : State := ((State.reset.resetEvent [0xAB#8]).load (some [0x0B#8, 0x00#8])).openInput true

/-- The next state of a step, if there is one. -/
def after (s : State) : Option State :=
  match step s with
  | .next t => some t
  | .fault _ => none
  | .refused _ => none

/-- Whether the record of the two bytes decodes to `i`. -/
def reads (opcode operand : Byte) (i : Instr) : Bool := decodeRecord opcode operand == i

/-! ### WellFormed -/

/-- The one check of `Instr.wf` (R55): an assigned opcode is refused as NOP_UNASSIGNED, an unassigned one
taken. -/
theorem test_wf_refuses_assigned_opcode :
    (Instr.nopUnassigned 0x03#8 0x21#8).wf = false ∧ (Instr.nopUnassigned 0x11#8 0x00#8).wf = false ∧
    (Instr.nopUnassigned 0x08#8 0xFF#8).wf = true ∧ (Instr.nopUnassigned 0x12#8 0x00#8).wf = true := by
  decide

/-! ### Decode: every constructor, by a record written out bit by bit from R50 and R54 -/

theorem test_decode_inc : reads 0b0000_0001#8 0b0010_0011#8 (.inc 0x23#8) = true := by decide
theorem test_decode_dec : reads 0b0000_0010#8 0b0010_0011#8 (.dec 0x23#8) = true := by decide
theorem test_decode_mov : reads 0b0000_0011#8 0b0010_0001#8 (.mov 1#4 2#4) = true := by decide
theorem test_decode_movc : reads 0b0000_0100#8 0b0100_0001#8 (.movc 0x41#8) = true := by decide
theorem test_decode_lsl : reads 0b0000_0101#8 0b1111_0100#8 (.lsl 4#4 15#4) = true := by decide
theorem test_decode_lsr : reads 0b0000_0110#8 0b1010_0100#8 (.lsr 4#4 10#4) = true := by decide
theorem test_decode_jmp : reads 0b0000_0111#8 0b1111_1000#8 (.jmp 0xF8#8) = true := by decide
theorem test_decode_jfe : reads 0b0000_1010#8 0b0000_1000#8 (.jfe 0x08#8) = true := by decide
theorem test_decode_ret : reads 0b0000_1011#8 0b1111_1111#8 (.ret 0xFF#8) = true := by decide
theorem test_decode_add : reads 0b0000_1100#8 0b1111_0010#8 (.add 2#4 15#4) = true := by decide
theorem test_decode_sub : reads 0b0000_1101#8 0b0001_0010#8 (.sub 2#4 1#4) = true := by decide
theorem test_decode_xor : reads 0b0000_1110#8 0b0001_0010#8 (.xor 2#4 1#4) = true := by decide
theorem test_decode_or : reads 0b0000_1111#8 0b0010_0001#8 (.or 1#4 2#4) = true := by decide
theorem test_decode_inp : reads 0b0001_0000#8 0b1111_0011#8 (.inp 3#4 15#4) = true := by decide
theorem test_decode_out : reads 0b0001_0001#8 0b1110_0011#8 (.out 3#4 14#4) = true := by decide
theorem test_decode_unassigned :
    reads 0b0000_0000#8 0b0000_0000#8 (.nopUnassigned 0x00#8 0x00#8) = true ∧
    reads 0b0000_1001#8 0b0000_0001#8 (.nopUnassigned 0x09#8 0x01#8) = true ∧
    reads 0b0001_0010#8 0b0000_0000#8 (.nopUnassigned 0x12#8 0x00#8) = true := by decide

/-- The table's word has the opcode in bits 15:8 (R33), the byte at the lower offset. -/
theorem test_table_word :
    decodeTableWord 16 0x0441 = some (.movc 0x41#8) ∧ decodeTableWord 16 0x0C21 = some (.add 1#4 2#4) ∧
    decodeTableWord 16 0 = some (.nopUnassigned 0#8 0#8) ∧ decodeTableWord 24 0 = none := by decide

/-- Fewer than two bytes are refused by name. -/
theorem test_decode_refuses_short :
    decode [] = .error .noOpcodeByte ∧ decode [0x04#8] = .error .noOperandByte := ⟨rfl, rfl⟩

/-! ### One step of each instruction, by the vectors of spec/95_test_vectors.md section 2 -/

theorem test_inc_changes_no_register :
    (after (((atOffset 0x10 0x01#8 0x23#8).setReg 2#4 0x07#8).setReg 3#4 0x09#8)).map
      (fun t => (t.pc, t.reg 2#4, t.reg 3#4, t.reg 0#4)) = some (0x12, 0x07#8, 0x09#8, 0x00#8) := by decide

theorem test_inc_faults_at_253 :
    (after (atOffset 0xFD 0x01#8 0x00#8)).map (fun t => (t.pc, t.rs, t.finfo)) =
      some (0xFD, .faulted, some ⟨253, 255⟩) := by decide

theorem test_dec_changes_no_register :
    (after (atOffset 0x20 0x02#8 0x00#8)).map (fun t => (t.pc, t.reg 0#4)) = some (0x22, 0x00#8) := by decide

theorem test_nop_advances_to_last_offset :
    (after (atOffset 0xFC 0x00#8 0x00#8)).map (fun t => (t.pc, t.rs)) = some (0xFE, .running) := by decide

theorem test_nop_faults_at_end_of_store :
    (after (atOffset 0xFE 0x00#8 0x00#8)).map (fun t => (t.pc, t.rs, t.finfo)) =
      some (0xFE, .faulted, some ⟨254, 256⟩) := by decide

theorem test_mov_copies_high_to_low :
    (after (((atOffset 0x10 0x03#8 0x21#8).setReg 1#4 0x11#8).setReg 2#4 0x99#8)).map
      (fun t => (t.reg 1#4, t.reg 2#4)) = some (0x99#8, 0x99#8) := by decide

theorem test_mov_reaches_register_15 :
    (after (((atOffset 0x10 0x03#8 0x0F#8).setReg 0#4 0x01#8).setReg 15#4 0xFE#8)).map
      (fun t => (t.reg 0#4, t.reg 15#4)) = some (0x01#8, 0x01#8) := by decide

theorem test_movc_nibbles_select_no_register :
    (after (((atOffset 0x10 0x04#8 0x41#8).setReg 1#4 0x22#8).setReg 4#4 0x33#8)).map
      (fun t => (t.reg 0#4, t.reg 1#4, t.reg 4#4)) = some (0x41#8, 0x22#8, 0x33#8) := by decide

theorem test_lsl_discards_bit_seven :
    (after ((atOffset 0x10 0x05#8 0x04#8).setReg 4#4 0xC1#8)).map (fun t => t.reg 4#4) = some 0x82#8 := by decide

theorem test_lsl_ignores_high_nibble :
    (after (((atOffset 0x10 0x05#8 0xF4#8).setReg 4#4 0x03#8).setReg 15#4 0x55#8)).map
      (fun t => (t.reg 4#4, t.reg 15#4)) = some (0x06#8, 0x55#8) := by decide

theorem test_lsr_fills_with_zero :
    (after ((atOffset 0x10 0x06#8 0x04#8).setReg 4#4 0x80#8)).map (fun t => t.reg 4#4) = some 0x40#8 := by decide

theorem test_lsr_discards_bit_zero :
    (after ((atOffset 0x10 0x06#8 0x04#8).setReg 4#4 0x83#8)).map (fun t => t.reg 4#4) = some 0x41#8 := by decide

theorem test_jmp_backward :
    (after (atOffset 0x10 0x07#8 0xFC#8)).map (fun t => (t.pc, t.rs)) = some (0x0C, .running) := by decide

theorem test_jmp_below_store_faults :
    (after (atOffset 0x7F 0x07#8 0x80#8)).map (fun t => (t.pc, t.rs, t.finfo)) =
      some (0x7F, .faulted, some ⟨127, -1⟩) := by decide

theorem test_jfe_follows_the_flag :
    (after (atOffset 0x06 0x0A#8 0x08#8)).map (fun t => t.pc) = some 0x08 ∧
    (after (atOffset 0x06 0x0A#8 0x08#8).setEof).map (fun t => (t.pc, t.eof)) = some (0x0E, true) := by decide

theorem test_jfe_not_taken_ignores_displacement :
    (after (atOffset 0x00 0x0A#8 0xFE#8)).map (fun t => (t.pc, t.rs)) = some (0x02, .running) ∧
    (after (atOffset 0x00 0x0A#8 0xFE#8).setEof).map (fun t => (t.pc, t.finfo)) =
      some (0x00, some ⟨0, -2⟩) := by decide

theorem test_ret_halts_at_end_of_store :
    (after (atOffset 0xFE 0x0B#8 0x00#8)).map (fun t => (t.pc, t.rs, t.finfo)) = some (256, .halted, none) := by
  decide

theorem test_add_wraps :
    (after (((atOffset 0x10 0x0C#8 0x21#8).setReg 1#4 0xC8#8).setReg 2#4 0x64#8)).map
      (fun t => (t.reg 1#4, t.reg 2#4)) = some (0x2C#8, 0x64#8) := by decide

theorem test_add_is_kept_by_the_fault :
    (after (((atOffset 0xFE 0x0C#8 0x21#8).setReg 1#4 0x01#8).setReg 2#4 0x02#8)).map
      (fun t => (t.reg 1#4, t.rs, t.finfo)) = some (0x03#8, .faulted, some ⟨254, 256⟩) := by decide

theorem test_sub_is_destination_minus_source :
    (after (((atOffset 0x10 0x0D#8 0x12#8).setReg 1#4 0x2C#8).setReg 2#4 0x00#8)).map
      (fun t => (t.reg 2#4, t.reg 1#4)) = some (0xD4#8, 0x2C#8) := by decide

theorem test_sub_of_itself_is_zero :
    (after ((atOffset 0x10 0x0D#8 0x33#8).setReg 3#4 0x9D#8)).map (fun t => t.reg 3#4) = some 0x00#8 := by decide

theorem test_xor_bits :
    (after (((atOffset 0x10 0x0E#8 0x12#8).setReg 1#4 0x5A#8).setReg 2#4 0x12#8)).map
      (fun t => (t.reg 2#4, t.reg 1#4)) = some (0x48#8, 0x5A#8) := by decide

theorem test_or_bits :
    (after (((atOffset 0x10 0x0F#8 0x21#8).setReg 1#4 0x58#8).setReg 2#4 0x4E#8)).map
      (fun t => (t.reg 1#4, t.reg 2#4)) = some (0x5E#8, 0x4E#8) := by decide

theorem test_in_takes_the_first_byte :
    (after { atOffset 0x10 0x10#8 0xF3#8 with din := [0xAB#8, 0xCD#8] }).map
      (fun t => (t.reg 3#4, t.reg 15#4, t.din, t.eof)) = some (0xAB#8, 0x00#8, [0xCD#8], false) := by decide

theorem test_in_exhausted_sets_eof_and_faults_at_end :
    (after ((atOffset 0xFE 0x10#8 0x03#8).setReg 3#4 0x77#8)).map
      (fun t => (t.reg 3#4, t.eof, t.rs, t.finfo)) = some (0x77#8, true, .faulted, some ⟨254, 256⟩) := by
  decide

theorem test_out_emits_low_nibble_register :
    (after (((atOffset 0x10 0x11#8 0xE3#8).setReg 3#4 0x41#8).setReg 14#4 0x99#8)).map
      (fun t => (t.dout, t.pc)) = some ([0x41#8], 0x12) := by decide

theorem test_out_is_shut_by_eof :
    (after (((atOffset 0x10 0x11#8 0x03#8).setReg 3#4 0x41#8).emit 0x07#8).setEof).map
      (fun t => (t.dout, t.pc)) = some ([0x07#8], 0x12) := by decide

/-- From reset, the placed record is the first instruction run. -/
theorem test_first_instruction_after_reset :
    (after (State.reset.withFetchWord 16 0x0441)).map (fun t => (t.pc, t.reg 0#4)) = some (2, 0x41#8) := by
  decide

/-! ### Hypotheses that are met: a state and operands for each statement that has some -/

/-- Clauses of OpcodeByteSelectsOperation: the first word of each row and the bounds of the last one. -/
theorem witness_opcode_rows :
    0x01FF#16 &&& 0xFF00#16 = 0x0100#16 ∧ 0x0200#16 &&& 0xFF00#16 = 0x0200#16 ∧
    0x03FF#16 &&& 0xFF00#16 = 0x0300#16 ∧ 0x0400#16 &&& 0xFF00#16 = 0x0400#16 ∧
    0x05FF#16 &&& 0xFF00#16 = 0x0500#16 ∧ 0x0600#16 &&& 0xFF00#16 = 0x0600#16 ∧
    0x07FF#16 &&& 0xFF00#16 = 0x0700#16 ∧ 0x0A00#16 &&& 0xFF00#16 = 0x0A00#16 ∧
    0x0BFF#16 &&& 0xFF00#16 = 0x0B00#16 ∧ 0x0C00#16 &&& 0xFF00#16 = 0x0C00#16 ∧
    0x0DFF#16 &&& 0xFF00#16 = 0x0D00#16 ∧ 0x0E00#16 &&& 0xFF00#16 = 0x0E00#16 ∧
    0x0FFF#16 &&& 0xFF00#16 = 0x0F00#16 ∧ 0x1000#16 &&& 0xFF00#16 = 0x1000#16 ∧
    0x11FF#16 &&& 0xFF00#16 = 0x1100#16 ∧ 0x00FF#16 &&& 0xFF00#16 = 0x0000#16 ∧
    0x0800#16 &&& 0xFF00#16 = 0x0800#16 ∧ 0x09FF#16 &&& 0xFF00#16 = 0x0900#16 ∧
    0x1200 ≤ (0x1200#16).toNat ∧ 0x1200 ≤ (0xFFFF#16).toNat := by decide

/-- DecodeInvertsEncode: a well-formed instruction of an assigned and of an unassigned opcode. -/
theorem witness_well_formed :
    (Instr.add 2#4 15#4).wf = true ∧ (Instr.nopUnassigned 0xFF#8 0xFF#8).wf = true := by decide

/-- IgnoredOperandBitsHaveNoEffect: both clauses, with operands that differ in ignored bits only. -/
theorem witness_ignored_bits :
    (0x05#8 ∈ [0x05#8, 0x06#8, 0x10#8, 0x11#8] ∧ (0xF4#8).toNat % 16 = (0x04#8).toNat % 16) ∧
    0x0B#8 ∉ [0x03#8, 0x04#8, 0x05#8, 0x06#8, 0x07#8, 0x0A#8, 0x0C#8, 0x0D#8, 0x0E#8, 0x0F#8, 0x10#8,
      0x11#8] := by decide

/-- The two clauses of GoesOnOrFaults at the offsets where they meet (all statements that end with it). -/
theorem witness_goes_on_and_faults :
    (atOffset 252 0x0C#8 0x21#8).pc ≤ 252 ∧
    ((atOffset 253 0x0C#8 0x21#8).pc = 253 ∨ (atOffset 253 0x0C#8 0x21#8).pc = 254) ∧
    ((atOffset 254 0x0C#8 0x21#8).pc = 253 ∨ (atOffset 254 0x0C#8 0x21#8).pc = 254) := by decide

/-- UnassignedOpcodesOnlyAdvance: each of its four ranges, the last at both ends. -/
theorem witness_unassigned_opcodes :
    (0x00#8 : Byte) = 0x00#8 ∧ (0x08#8 : Byte) = 0x08#8 ∧ (0x09#8 : Byte) = 0x09#8 ∧
    0x12 ≤ (0x12#8 : Byte).toNat ∧ 0x12 ≤ (0xFF#8 : Byte).toNat := by decide

/-- LslShiftsLeftByOne, LsrShiftsRightByOne, XorIsBitwise and OrIsBitwise: the greatest bit index. -/
theorem witness_bit_index : 6 < 7 ∧ 7 < 8 := by decide

/-- JmpGoesToOwnOffsetPlusDisplacement and JfeJumpsExactlyWhenEofSet: targets 0 and 254 are inside, -1 and 255
outside; the flag set and clear. -/
theorem witness_jump_targets :
    (((atOffset 0x80 0x07#8 0x80#8).pc : Int) + sext8 0x80#8 = 0) ∧
    (((atOffset 0x80 0x07#8 0x7E#8).pc : Int) + sext8 0x7E#8 = 254) ∧
    (((atOffset 0x7F 0x07#8 0x80#8).pc : Int) + sext8 0x80#8 < 0) ∧
    (255 ≤ ((atOffset 0x80 0x07#8 0x7F#8).pc : Int) + sext8 0x7F#8) ∧
    (atOffset 0x80 0x0A#8 0x80#8).setEof.eof = true ∧ (atOffset 0x80 0x0A#8 0x80#8).eof = false := by decide

/-- InReadsByteOrSetsEof: a stream with a byte and an exhausted one. -/
theorem witness_input :
    ({ atOffset 0x10 0x10#8 0x03#8 with din := [0x00#8] } : State).din = 0x00#8 :: [] ∧
    (atOffset 0x10 0x10#8 0x03#8).din = [] := by decide

/-- OutEmitsUnlessEof: the flag clear and set. -/
theorem witness_output_gate :
    (atOffset 0x10 0x11#8 0x03#8).eof = false ∧ (atOffset 0x10 0x11#8 0x03#8).setEof.eof = true := by decide

/-- SignExtensionIsTwosComplement: the bounds of each clause. -/
theorem witness_sign_extension :
    (0x7F#8 : Byte).toNat ≤ 127 ∧ 128 ≤ (0x80#8 : Byte).toNat ∧
    ((-128 : Int) ≤ -128 ∧ (-128 : Int) ≤ 127) ∧ ((-128 : Int) ≤ 127 ∧ (127 : Int) ≤ 127) := by decide

/-- RegistersHoldWhatIsWritten: two different registers. -/
theorem witness_two_registers : (15#4 : Nibble) ≠ 0#4 := by decide

/-- InstructionsWriteOnlyTheirRegister, OnlyInAndOutTouchFlagAndStreams, NextPointerIsSelectedAndChecked: an
instruction that answers a next state, a register outside its write set, and an instruction that is neither
IN nor OUT. -/
theorem witness_exec_next :
    (∃ t, exec (.add 1#4 2#4) (atOffset 0x10 0x0C#8 0x21#8) = .next t) ∧
    2#4 ∉ writeSet (.add 1#4 2#4) (atOffset 0x10 0x0C#8 0x21#8) ∧
    (∀ lo hi, Instr.add 1#4 2#4 ≠ .inp lo hi) ∧ (∀ lo hi, Instr.add 1#4 2#4 ≠ .out lo hi) :=
  ⟨⟨_, rfl⟩, by decide, fun _ _ h => (nomatch h), fun _ _ h => (nomatch h)⟩

/-- InstructionsReadOnlyTheirRegisters: two states that differ in a register ADD does not read. -/
theorem witness_read_set :
    let s := atOffset 0x10 0x0C#8 0x21#8
    AgreeButRegs s (s.setReg 5#4 0x77#8) ∧
    (∀ r, r ∈ readSet (.add 1#4 2#4) s → (s.setReg 5#4 0x77#8).reg r = s.reg r) ∧
    (s.setReg 5#4 0x77#8).reg 5#4 ≠ s.reg 5#4 ∧ 1#4 ∈ writeSet (.add 1#4 2#4) s ∧
    (∃ t, exec (.add 1#4 2#4) s = .next t) ∧
    ∃ t, exec (.add 1#4 2#4) (s.setReg 5#4 0x77#8) = .next t :=
  ⟨⟨rfl, rfl, rfl, rfl, rfl, rfl, rfl, rfl, rfl, rfl⟩, by decide, by decide, by decide, ⟨_, rfl⟩, ⟨_, rfl⟩⟩

/-- StreamsMoveInOrder, StoreNeverChanges, NothingIsEmittedAfterEof: a run of one step, with `EOF` set. -/
theorem witness_run :
    ∃ t, Steps 1 (atOffset 0x10 0x11#8 0x03#8).setEof t ∧ (atOffset 0x10 0x11#8 0x03#8).setEof.eof = true :=
  ⟨_, ⟨_, rfl, rfl⟩, rfl⟩

/-- StepRunsDecodedInstruction, at an odd offset and at the last one. -/
theorem witness_decoded_step :
    ((atOffset 3 0x04#8 0x41#8).rs = .running ∧ (atOffset 3 0x04#8 0x41#8).pc ≤ 254 ∧
      decode [(atOffset 3 0x04#8 0x41#8).storeByte 3, (atOffset 3 0x04#8 0x41#8).storeByte (3 + 1)] =
        .ok (.movc 0x41#8, []) ∧ (Instr.movc 0x41#8).wf = true) ∧
    (atOffset 254 0x0B#8 0xFF#8).rs = .running ∧ (atOffset 254 0x0B#8 0xFF#8).pc ≤ 254 ∧
    decode [(atOffset 254 0x0B#8 0xFF#8).storeByte 254, (atOffset 254 0x0B#8 0xFF#8).storeByte (254 + 1)] =
      .ok (.ret 0xFF#8, []) ∧ (Instr.ret 0xFF#8).wf = true :=
  ⟨⟨rfl, by decide, rfl, rfl⟩, rfl, by decide, rfl, rfl⟩

/-- EveryRunningStepCompletes and RunStateTransitionsOfAStep, at an odd offset and at the last one. -/
theorem witness_running_step :
    ((atOffset 3 0x04#8 0x41#8).rs = .running ∧ (atOffset 3 0x04#8 0x41#8).pc ≤ 254 ∧
      (after (atOffset 3 0x04#8 0x41#8)).isSome = true) ∧
    (atOffset 254 0x0B#8 0x00#8).rs = .running ∧ (atOffset 254 0x0B#8 0x00#8).pc ≤ 254 ∧
    (after (atOffset 254 0x0B#8 0x00#8)).isSome = true := by decide

/-- RunEventStartsAtOffsetZero and NoRunStartsWithoutBootDuties: READY with both duties done, with neither, and
with one of them only; and a step that leaves the machine RUNNING. -/
theorem witness_boot_duties :
    (bootedReady.rs = .ready ∧ bootedReady.loaded = true ∧ bootedReady.inputReady = true) ∧
    (bootedReady.hostMove .run).rs = .running ∧
    (State.reset.loaded = false ∧ (State.reset.hostMove .run).rs = .ready) ∧
    (bootedReady.openInput false).inputReady = false ∧ (bootedReady.load none).loaded = false ∧
    (bootedReady.openInput false).runEvent.rs = .ready ∧ (bootedReady.load none).runEvent.rs = .ready ∧
    (after (atOffset 0 0x01#8 0x00#8)).map (fun t => t.rs) = some .running := by decide

/-- The boot of a program whose data source could not be opened: duty (2) is done, the run is not started (R132). -/
theorem test_boot_without_input_keeps_the_program :
    let t := State.reset.boot (some [0x0B#8, 0x07#8]) none
    t.rs = .ready ∧ t.storeByte 1 = 0x07#8 ∧ t.loaded = true ∧ t.inputReady = false := by decide

/-- NotRunningTakesNoStep, LoadCopiesAndTruncates, RunStateTransitionsOfAStep: each
run state that is not RUNNING. -/
theorem witness_run_states :
    State.reset.rs = .ready ∧ (atOffset 4 0x0B#8 0x00#8).halt.rs = .halted ∧ (atOffset 4 0x0B#8 0x00#8).halt.rs ≠ .ready ∧
    ((atOffset 0 0x07#8 0xFE#8).raiseProgramFault (-2)).rs = .faulted ∧
    (after (atOffset 4 0x0B#8 0x00#8).halt).isSome = true := by decide

/-- LoadCopiesAndTruncates, BootStartsOnlyASuccessfulLoad: the last byte of a program of 256, and the first
offset a program of one byte does not reach. -/
theorem witness_load :
    (State.reset.rs = .ready ∧ 255 < 256 ∧ (List.replicate 256 0x5A#8)[255]? = some 0x5A#8) ∧
    (State.reset.rs = .ready ∧ 1 < 256 ∧ [0x5A#8].length ≤ 1) ∧
    ((none : Option (List Byte)) = none ∨ some [0x5A#8] = none) := by decide

/-- FetchOutsideStoreStops: the first offset without a record. -/
theorem witness_fetch_outside : (atOffset 255 0x00#8 0x00#8).rs = .running ∧ 255 ≤ (atOffset 255 0x00#8 0x00#8).pc := by
  decide

/-- StepReadsOnlyItsRecord: two stores that differ at an offset the step does not read. -/
theorem witness_other_store :
    let s := atOffset 0x10 0x04#8 0x41#8
    let s' := { s with ps := (0x00, 0x0B#8) :: s.ps }
    AgreeButStore s s' ∧ s'.storeByte s.pc = s.storeByte s.pc ∧
    s'.storeByte (s.pc + 1) = s.storeByte (s.pc + 1) ∧ s'.ps ≠ s.ps ∧ (after s).isSome = true :=
  ⟨⟨fun _ => rfl, rfl, rfl, rfl, rfl, rfl, rfl, rfl, rfl⟩, by decide, by decide, by decide, by decide⟩

/-- NextPointerIsSelectedAndChecked: RET, and a jump inside the store (to 0) and outside it (to -1), each with
its next state and its next pointer. -/
theorem witness_next_pointer :
    ((∃ t, exec (.ret 0x00#8) (atOffset 254 0x0B#8 0x00#8) = .next t) ∧ haltNext (.ret 0x00#8) = true ∧
      jumpTaken (.ret 0x00#8) (atOffset 254 0x0B#8 0x00#8) = false) ∧
    ((∃ t, exec (.jmp 0x80#8) (atOffset 0x80 0x07#8 0x80#8) = .next t) ∧ haltNext (.jmp 0x80#8) = false ∧
      jumpTaken (.jmp 0x80#8) (atOffset 0x80 0x07#8 0x80#8) = true ∧
      ((atOffset 0x80 0x07#8 0x80#8).pc : Int) + displacement (.jmp 0x80#8) = 0) ∧
    (∃ t, exec (.jmp 0x80#8) (atOffset 0x7F 0x07#8 0x80#8) = .next t) ∧
      ((atOffset 0x7F 0x07#8 0x80#8).pc : Int) + displacement (.jmp 0x80#8) = -1 :=
  ⟨⟨⟨_, rfl⟩, rfl, rfl⟩, ⟨⟨_, rfl⟩, rfl, rfl, by decide⟩, ⟨_, rfl⟩, by decide⟩

/-- ProgramFaultExactlyWhenTabled and FaultKeepsTheOffendersEffects: an ADD at 254 that faults, and the same ADD
where it goes on. -/
theorem witness_fault :
    (atOffset 254 0x0C#8 0x21#8).rs = .running ∧ (atOffset 254 0x0C#8 0x21#8).pc ≤ 254 ∧
    (after (atOffset 254 0x0C#8 0x21#8)).map (fun t => t.rs) = some .faulted ∧
    (∃ t, exec (.add 1#4 2#4) (atOffset 254 0x0C#8 0x21#8) = .next t ∧ t.rs = .faulted) ∧
    ∃ u, exec (.add 1#4 2#4) ((atOffset 254 0x0C#8 0x21#8).setPc 16) = .next u :=
  ⟨rfl, by decide, by decide, ⟨_, rfl, by decide⟩, ⟨_, rfl⟩⟩

/-- StepKeepsInvariants and HostMovesKeepInvariants: a RUNNING state that meets the invariants and steps. -/
theorem witness_invariants :
    (atOffset 0x10 0x10#8 0x03#8).Inv ∧ ∃ t, step (atOffset 0x10 0x10#8 0x03#8) = .next t :=
  ⟨{ runningPc := fun _ => by decide
     pcBound := by decide
     pastEnd := fun h => absurd h (by decide)
     eofDry := fun _ => rfl
     readyFresh := fun h => absurd h (by decide)
     faultRecord := fun h => absurd h (by decide)
     noRecord := fun _ => rfl
     storeCanonical := by decide
     bootedToRun := fun _ => ⟨rfl, rfl⟩ }, ⟨_, rfl⟩⟩

/-- After a halt every further step is the same state, so no run goes on. -/
theorem halted_steps (n : Nat) {s t : State} (hs : s.rs = .halted) (h : Steps n s t) : t = s := by
  induction n generalizing s with
  | zero => exact h
  | succ n ih =>
    obtain ⟨u, hu, hr⟩ := h
    have : u = s := by
      rw [step, if_neg (by rw [hs]; decide)] at hu
      simp only [notRunning, hs] at hu
      exact (Host.Outcome.next.inj hu).symm
    subst this
    exact ih hs hr

/-- JumpFreeRunEndsWithin128Steps: a run that takes no jump (it is at a RET). -/
theorem witness_jump_free :
    let s := atOffset 254 0x0B#8 0x00#8
    s.rs = .running ∧ s.pc ≤ 254 ∧
    ∀ (k : Nat) (t : State) (i : Instr), Steps k s t → t.rs = .running → fetchInstr t = .ok i →
      jumpTaken i t = false := by
  refine ⟨rfl, by decide, fun k t i hk hr hf => ?_⟩
  cases k with
  | zero =>
    cases hk
    cases hf
    rfl
  | succ k =>
    obtain ⟨u, hu, hs⟩ := hk
    cases hu
    rw [halted_steps k rfl hs] at hr
    exact absurd hr (by decide)

/-- SelfJumpRunsForever: a JMP and, with the flag set, a JFE, each with displacement 0, at the last offset. -/
theorem witness_self_jump :
    ((atOffset 254 0x07#8 0x00#8).rs = .running ∧ (atOffset 254 0x07#8 0x00#8).pc ≤ 254 ∧
      (atOffset 254 0x07#8 0x00#8).storeByte 254 = 0x07#8 ∧ (atOffset 254 0x07#8 0x00#8).storeByte 255 = 0x00#8) ∧
    (atOffset 254 0x0A#8 0x00#8).setEof.storeByte 254 = 0x0A#8 ∧ (atOffset 254 0x0A#8 0x00#8).setEof.eof = true ∧
    (atOffset 254 0x0A#8 0x00#8).setEof.storeByte 255 = 0x00#8 := by decide

end Sys2Proof.Tests
end

/-! Proofs of the statements about the machine's state (spec/10_state.md): what an instruction does to the
registers, the flag and the streams, what a step does to the run state, and the invariants of R24. -/

namespace Sys2Proof.Machine

/-! ### The effects of an instruction, before its commit -/

/-- The five effects an instruction can have on registers, flag and streams: `e` is the state it has made of `s`
when its commit comes, and the register it has written, if any, is the one of R11's written column. -/
inductive Effect (i : Instr) (s e : State) : Prop where
  | nothing (written : writeSet i s = []) (result : e = s)
  | writes (d : Nibble) (v : Byte) (written : writeSet i s = [d]) (result : e = s.setReg d v)
  | takes (lo hi : Nibble) (byte : Byte) (rest : List Byte) (instr : i = .inp lo hi)
      (input : s.din = byte :: rest) (written : writeSet i s = [lo])
      (result : e = ({ s with din := rest } : State).setReg lo byte)
  | runsDry (lo hi : Nibble) (instr : i = .inp lo hi) (input : s.din = []) (written : writeSet i s = [])
      (result : e = s.setEof)
  | emits (lo hi : Nibble) (instr : i = .out lo hi) (flag : s.eof = false) (written : writeSet i s = [])
      (result : e = s.emit (s.reg lo))

theorem executed_effect (i : Instr) (s : State) : Effect i s (executed i s) := by
  cases i with
  | mov lo | movc | lsl lo | lsr lo | add lo | sub lo | xor lo | or lo => exact .writes _ _ rfl rfl
  | inc | dec | jmp | jfe | ret | nopUnassigned => exact .nothing rfl rfl
  | inp lo hi =>
    cases h : s.din with
    | nil => exact .runsDry lo hi rfl h (by simp [writeSet, h]) (by simp [executed, h])
    | cons byte rest => exact .takes lo hi byte rest rfl h (by simp [writeSet, h]) (by simp [executed, h])
  | out lo hi =>
    cases h : s.eof with
    | false => exact .emits lo hi rfl h rfl (by simp [executed, h])
    | true => exact .nothing rfl (by simp [executed, h])

/-! ### What follows the effects: the commit, or RET's halt -/

theorem exec_next_eq {i : Instr} {s t : State} (h : exec i s = .next t) : t = committed i s :=
  Host.Outcome.next.inj (h.symm.trans (exec_eq s i))

theorem State.commit_onlyPointer (s : State) (next : Int) : OnlyPointer s (s.commit next) := by
  simp [OnlyPointer, SameRegs, SameStreams, SameStore]

theorem State.halt_onlyPointer (s : State) : OnlyPointer s s.halt := by
  simp [OnlyPointer, SameRegs, SameStreams, SameStore]

/-- After its effects an instruction changes nothing but the pointer and the run state. -/
theorem exec_onlyPointer {i : Instr} {s t : State} (h : exec i s = .next t) :
    OnlyPointer (executed i s) t := by
  obtain ⟨operand, rfl, rfl⟩ | ⟨-, rfl⟩ := exec_cases h
  · exact s.halt_onlyPointer
  · exact (executed i s).commit_onlyPointer _

/-! ### R24: the invariants are kept, operation by operation -/

section Invariants

variable {s : State}

/-- Effects keep the rule that `EOF` is set only on an exhausted input (R24 (b)). -/
theorem executed_eofDry (i : Instr) (h : s.eof = true → s.din = []) :
    (executed i s).eof = true → (executed i s).din = [] := by
  cases executed_effect i s with
  | nothing _ result => rwa [result]
  | writes d v _ result => rwa [result]
  | takes lo hi byte rest _ input _ result =>
    rw [result]
    intro heof
    exact absurd (input.symm.trans (h heof)) (List.cons_ne_nil byte rest)
  | runsDry lo hi _ input _ result => rw [result]; exact fun _ => input
  | emits lo hi _ flag _ result => rwa [result]

theorem State.Inv.executed (h : s.Inv) (hr : s.rs = .running) (i : Instr) : (executed i s).Inv := by
  obtain ⟨hpc, hrs, hfinfo, hps, -, hloaded, hinput⟩ := executed_frame s i
  rw [hr] at hrs
  exact {
    runningPc := fun _ => hpc ▸ h.runningPc hr
    pcBound := hpc ▸ h.pcBound
    pastEnd := fun hlt => absurd (h.runningPc hr) (by omega)
    eofDry := executed_eofDry i h.eofDry
    readyFresh := fun hs => absurd (hrs.symm.trans hs) (by decide)
    faultRecord := fun hs => absurd (hrs.symm.trans hs) (by decide)
    noRecord := fun _ => hfinfo.trans (h.noRecord (by simp [hr]))
    storeCanonical := hps ▸ h.storeCanonical
    bootedToRun := fun _ => by rw [hloaded, hinput]; exact h.bootedToRun (by simp [hr]) }

theorem State.Inv.setPc (h : s.Inv) (hr : s.rs = .running) {p : Nat} (hp : p ≤ 254) : (s.setPc p).Inv where
  runningPc _ := hp
  pcBound := Nat.le_trans hp (by decide)
  pastEnd hlt := absurd hp (Nat.not_le.mpr hlt)
  eofDry := h.eofDry
  readyFresh hs := absurd (hr.symm.trans hs) (by decide)
  faultRecord hs := absurd (hr.symm.trans hs) (by decide)
  noRecord := h.noRecord
  storeCanonical := h.storeCanonical
  bootedToRun := h.bootedToRun

/-- A fault raised from inside the store, with a target out of it but within reach (R18). -/
theorem State.Inv.raiseProgramFault (h : s.Inv) (hr : s.rs = .running) {target : Int}
    (hout : target < 0 ∨ 254 < target) (hlow : (s.pc : Int) - 128 ≤ target)
    (hhigh : target ≤ (s.pc : Int) + 127) : (s.raiseProgramFault target).Inv := by
  have hpc := h.runningPc hr
  exact {
    runningPc := fun _ => hpc
    pcBound := h.pcBound
    pastEnd := fun hlt => absurd hpc (Nat.not_le.mpr hlt)
    eofDry := h.eofDry
    readyFresh := fun hs => nomatch hs
    faultRecord := fun _ => ⟨target, rfl, by omega⟩
    noRecord := fun hs => absurd rfl hs
    storeCanonical := h.storeCanonical
    bootedToRun := fun _ => h.bootedToRun (by simp [hr]) }

theorem State.Inv.halt (h : s.Inv) (hr : s.rs = .running) : s.halt.Inv where
  runningPc hs := nomatch hs
  pcBound := Nat.add_le_add_right (h.runningPc hr) 2
  pastEnd _ := rfl
  eofDry := h.eofDry
  readyFresh hs := nomatch hs
  faultRecord hs := nomatch hs
  noRecord _ := h.noRecord (by simp [hr])
  storeCanonical := h.storeCanonical
  bootedToRun _ := h.bootedToRun (by simp [hr])

/-- The bounds check keeps the invariants for every next pointer within reach. -/
theorem State.Inv.commit (h : s.Inv) (hr : s.rs = .running) {next : Int} (hlow : (s.pc : Int) - 128 ≤ next)
    (hhigh : next ≤ (s.pc : Int) + 127) : (s.commit next).Inv := by
  obtain ⟨p, -, hp, heq⟩ | ⟨hout, heq⟩ := s.commit_cases next
  · exact heq ▸ h.setPc hr hp
  · exact heq ▸ h.raiseProgramFault hr hout hlow hhigh

theorem State.Inv.exec (h : s.Inv) (hr : s.rs = .running) {i : Instr} {t : State}
    (he : exec i s = .next t) : t.Inv := by
  obtain ⟨operand, rfl, rfl⟩ | ⟨-, rfl⟩ := exec_cases he
  · exact h.halt hr
  · obtain ⟨hpc, hrs, -⟩ := executed_frame s i
    obtain ⟨hlow, hhigh⟩ := asked_bounds s i
    exact (h.executed hr i).commit (hrs.trans hr) (hpc ▸ hlow) (hpc ▸ hhigh)

end Invariants

/-- Settles O40: the invariants are kept by the effects, and then by the commit or by RET's halt. -/
theorem stepKeepsInvariants : Obligations.StepKeepsInvariants := by
  intro s t h hstep
  by_cases hr : s.rs = .running
  · exact h.exec hr (step_running s hr hstep).2
  · exact step_idle s hr hstep ▸ h

/-! ### R10 to R12: the registers written and read -/

/-- Settles O24, by the register file's two laws. -/
theorem registersHoldWhatIsWritten : Obligations.RegistersHoldWhatIsWritten :=
  fun s i _ v => ⟨s.setReg_reg_self i v, fun h => s.setReg_reg_ne h v⟩

/-- Settles O25: each effect writes the one register of the written column or none, and the commit none. -/
theorem instructionsWriteOnlyTheirRegister : Obligations.InstructionsWriteOnlyTheirRegister := by
  intro i s t h
  obtain ⟨hregs, -⟩ := exec_onlyPointer h
  simp only [hregs _]
  cases executed_effect i s with
  | nothing written result => simp [written, result]
  | writes d v written result => simp +contextual [written, result, State.setReg_reg]
  | takes lo hi byte rest _ _ written result =>
    have hreg (r : Nibble) : ({ s with din := rest } : State).reg r = s.reg r := rfl
    simp +contextual [written, result, State.setReg_reg, hreg]
  | runsDry lo hi _ _ written result => simp [written, result]
  | emits lo hi _ _ written result => simp [written, result]

section Agreement

variable {s s' : State}

theorem agreeButRegs_iff : AgreeButRegs s s' ↔ ∃ x, s' = { s with x := x } := by
  constructor
  · intro ⟨hpc, heof, hrs, hfinfo, hps, hdin, hdout, hlaunch, hloaded, hinput⟩
    cases s'
    cases hpc; cases heof; cases hrs; cases hfinfo; cases hps
    cases hdin; cases hdout; cases hlaunch; cases hloaded; cases hinput
    exact ⟨_, rfl⟩
  · rintro ⟨x, rfl⟩
    exact ⟨rfl, rfl, rfl, rfl, rfl, rfl, rfl, rfl, rfl, rfl⟩

theorem AgreeButRegs.commit (h : AgreeButRegs s s') (next : Int) :
    AgreeButRegs (s.commit next) (s'.commit next) := by
  obtain ⟨x, rfl⟩ := agreeButRegs_iff.mp h
  unfold State.commit
  split <;> exact agreeButRegs_iff.mpr ⟨x, rfl⟩

theorem AgreeButRegs.halt (h : AgreeButRegs s s') : AgreeButRegs s.halt s'.halt := by
  obtain ⟨x, rfl⟩ := agreeButRegs_iff.mp h
  exact agreeButRegs_iff.mpr ⟨x, rfl⟩

theorem AgreeButRegs.setReg (h : AgreeButRegs s s') (d : Nibble) (v v' : Byte) :
    AgreeButRegs (s.setReg d v) (s'.setReg d v') := by
  obtain ⟨x, rfl⟩ := agreeButRegs_iff.mp h
  exact agreeButRegs_iff.mpr ⟨_, rfl⟩

theorem AgreeButRegs.emit (h : AgreeButRegs s s') (v : Byte) : AgreeButRegs (s.emit v) (s'.emit v) := by
  obtain ⟨x, rfl⟩ := agreeButRegs_iff.mp h
  exact agreeButRegs_iff.mpr ⟨x, rfl⟩

theorem AgreeButRegs.eof_eq (h : AgreeButRegs s s') : s'.eof = s.eof := by
  obtain ⟨x, rfl⟩ := agreeButRegs_iff.mp h
  rfl

/-- The next pointer asked for depends on no register. -/
theorem AgreeButRegs.asked_eq (h : AgreeButRegs s s') (i : Instr) : asked i s' = asked i s := by
  obtain ⟨x, rfl⟩ := agreeButRegs_iff.mp h
  rfl

theorem AgreeButRegs.committed {i : Instr} (h : AgreeButRegs s s')
    (he : AgreeButRegs (executed i s) (executed i s')) : AgreeButRegs (committed i s) (committed i s') := by
  cases i with
  | ret => exact h.halt
  | _ =>
    unfold Machine.committed
    rw [h.asked_eq]
    exact he.commit _

/-- The states agree in everything but the registers, and in the registers of `regs`. -/
def AgreeOn (regs : List Nibble) (s s' : State) : Prop :=
  AgreeButRegs s s' ∧ ∀ r, r ∈ regs → s'.reg r = s.reg r

/-- One value written to the same register makes the states agree in that register. -/
theorem AgreeButRegs.agreeOn_setReg (h : AgreeButRegs s s') (d : Nibble) {v v' : Byte} (hv : v' = v) :
    AgreeOn [d] (s.setReg d v) (s'.setReg d v') :=
  ⟨h.setReg d v v', fun r hr => by simp [List.mem_singleton.mp hr, hv]⟩

theorem AgreeButRegs.agreeOn_nil (h : AgreeButRegs s s') : AgreeOn [] s s' := ⟨h, by simp⟩

/-- Two states that agree on what an instruction reads have agreeing effects, down to the register written. -/
theorem AgreeOn.executed {i : Instr} (h : AgreeOn (readSet i s) s s') :
    AgreeOn (writeSet i s) (executed i s) (executed i s') := by
  obtain ⟨hs, hread⟩ := h
  cases i with
  | inc | dec | jmp | jfe | ret | nopUnassigned => exact hs.agreeOn_nil
  | movc => exact hs.agreeOn_setReg _ rfl
  | mov lo hi => exact hs.agreeOn_setReg lo (hread hi (by simp [readSet]))
  | lsl lo | lsr lo => exact hs.agreeOn_setReg lo (by rw [hread lo (by simp [readSet])])
  | add lo hi | sub lo hi | xor lo hi | or lo hi =>
    exact hs.agreeOn_setReg lo (by rw [hread lo (by simp [readSet]), hread hi (by simp [readSet])])
  | inp lo hi =>
    obtain ⟨x, rfl⟩ := agreeButRegs_iff.mp hs
    cases hdin : s.din with
    | nil =>
      simp only [Machine.executed, writeSet, hdin, if_true]
      exact (agreeButRegs_iff.mpr ⟨x, by simp [State.setEof, hdin]⟩).agreeOn_nil
    | cons byte rest =>
      simp only [Machine.executed, writeSet, hdin, reduceCtorEq, if_false]
      exact (agreeButRegs_iff.mpr ⟨x, rfl⟩).agreeOn_setReg lo rfl
  | out lo hi =>
    have heof' : s'.eof = s.eof := hs.eof_eq
    cases heof : s.eof with
    | true =>
      rw [heof] at heof'
      simp only [Machine.executed, writeSet, heof, heof', if_true]
      exact hs.agreeOn_nil
    | false =>
      have hlo := hread lo (by simp [readSet, heof])
      rw [heof] at heof'
      simp only [Machine.executed, writeSet, heof, heof', hlo, Bool.false_eq_true, if_false]
      exact (hs.emit _).agreeOn_nil

end Agreement

/-- Settles O26: the effects agree, and the commit reads no register. -/
theorem instructionsReadOnlyTheirRegisters : Obligations.InstructionsReadOnlyTheirRegisters := by
  intro i s s' t t' hs hread ht ht'
  obtain ⟨he, hwritten⟩ := AgreeOn.executed ⟨hs, hread⟩
  obtain ⟨hregs, -⟩ := exec_onlyPointer ht
  obtain ⟨hregs', -⟩ := exec_onlyPointer ht'
  refine ⟨?_, fun r hr => by rw [hregs' r, hregs r, hwritten r hr]⟩
  rw [exec_next_eq ht, exec_next_eq ht']
  exact hs.committed he

/-! ### R16, R21, R24 (e): the flag and the streams -/

/-- Settles O27, by the effects: the flag and the input change only where IN takes a byte or runs dry, the output
only where OUT emits. -/
theorem onlyInAndOutTouchFlagAndStreams : Obligations.OnlyInAndOutTouchFlagAndStreams := by
  intro i s t h
  obtain ⟨-, heof, ⟨hdin, hdout⟩, -⟩ := exec_onlyPointer h
  rw [heof, hdin, hdout]
  cases executed_effect i s with
  | nothing _ result => simp [result]
  | writes d v _ result => simp [result]
  | takes lo hi byte rest instr _ _ result => exact ⟨fun hin => absurd instr (hin lo hi), by simp [result]⟩
  | runsDry lo hi instr _ _ result => exact ⟨fun hin => absurd instr (hin lo hi), by simp [result]⟩
  | emits lo hi instr _ _ result => exact ⟨by simp [result], fun hout => absurd instr (hout lo hi)⟩

/-- From `s` to `t` bytes are taken from the front of the input and emitted at the end of the output, at most `n`
of them together. -/
def MovesStreams (n : Nat) (s t : State) : Prop :=
  ∃ taken emitted : List Byte,
    s.din = taken ++ t.din ∧ t.dout = s.dout ++ emitted ∧ taken.length + emitted.length ≤ n

theorem MovesStreams.of_sameStreams (n : Nat) {s t : State} (h : SameStreams s t) : MovesStreams n s t :=
  ⟨[], [], h.1.symm, by simp [h.2], Nat.zero_le n⟩

theorem MovesStreams.trans {m n : Nat} {s u t : State} (h : MovesStreams m s u) (h' : MovesStreams n u t) :
    MovesStreams (m + n) s t := by
  obtain ⟨taken, emitted, hdin, hdout, hlen⟩ := h
  obtain ⟨taken', emitted', hdin', hdout', hlen'⟩ := h'
  refine ⟨taken ++ taken', emitted ++ emitted', by simp [hdin, hdin'], by simp [hdout, hdout'], ?_⟩
  simp only [List.length_append]
  omega

theorem executed_movesStreams (i : Instr) (s : State) : MovesStreams 1 s (executed i s) := by
  cases executed_effect i s with
  | nothing _ result => exact .of_sameStreams 1 (by simp [SameStreams, result])
  | writes d v _ result => exact .of_sameStreams 1 (by simp [SameStreams, result])
  | takes lo hi byte rest _ input _ result => exact ⟨[byte], [], by simp [result, input]⟩
  | runsDry lo hi _ _ _ result => exact .of_sameStreams 1 (by simp [SameStreams, result])
  | emits lo hi _ _ _ result => exact ⟨[], [s.reg lo], by simp [result]⟩

theorem step_movesStreams {s t : State} (h : step s = .next t) : MovesStreams 1 s t := by
  by_cases hr : s.rs = .running
  · obtain ⟨-, -, hstreams, -⟩ := exec_onlyPointer (step_running s hr h).2
    exact (executed_movesStreams _ s).trans (.of_sameStreams 0 hstreams)
  · exact .of_sameStreams 1 (step_idle s hr h ▸ ⟨rfl, rfl⟩)

/-- Settles O28, by induction on the number of steps. -/
theorem streamsMoveInOrder : Obligations.StreamsMoveInOrder := by
  intro n
  change ∀ s t, Steps n s t → MovesStreams n s t
  induction n with
  | zero =>
    rintro s _ rfl
    exact .of_sameStreams 0 ⟨rfl, rfl⟩
  | succ n ih =>
    rintro s t ⟨u, hstep, hrest⟩
    exact Nat.add_comm 1 n ▸ (step_movesStreams hstep).trans (ih u t hrest)

/-! ### R17: the run state -/

/-- The decoded instruction carries the opcode byte it was decoded from (R54). -/
theorem opcodeOf_decodeRecord (opcode operand : Byte) : opcodeOf (decodeRecord opcode operand) = opcode := by
  unfold decodeRecord
  split <;> rfl

theorem decodeRecord_eq_ret_iff (opcode operand : Byte) :
    (∃ b, decodeRecord opcode operand = .ret b) ↔ opcode = 0x0B#8 := by
  constructor
  · rintro ⟨b, hb⟩
    rw [← opcodeOf_decodeRecord opcode operand, hb]
    rfl
  · rintro rfl
    exact ⟨operand, rfl⟩

theorem State.commit_rs_cases (s : State) (next : Int) :
    (s.commit next).rs = s.rs ∨ (s.commit next).rs = .faulted := by
  obtain ⟨p, -, -, heq⟩ | ⟨-, heq⟩ := s.commit_cases next
  · exact .inl (by simp [heq])
  · exact .inr (by simp [heq])

/-- R17 for an instruction: RET halts, any other one keeps the run state or faults. -/
theorem exec_rs_cases {i : Instr} {s t : State} (h : exec i s = .next t) :
    ((∃ b, i = .ret b) ∧ t.rs = .halted) ∨ ((¬∃ b, i = .ret b) ∧ (t.rs = s.rs ∨ t.rs = .faulted)) := by
  obtain ⟨operand, rfl, rfl⟩ | ⟨hret, rfl⟩ := exec_cases h
  · exact .inl ⟨⟨operand, rfl⟩, rfl⟩
  · obtain ⟨-, hrs, -⟩ := executed_frame s i
    exact .inr ⟨not_exists.mpr hret, hrs ▸ (executed i s).commit_rs_cases (asked i s)⟩

/-- Settles O39: a machine that is not RUNNING idles, and of the instructions RET alone halts. -/
theorem runStateTransitionsOfAStep : Obligations.RunStateTransitionsOfAStep := by
  intro s t h
  by_cases hr : s.rs = .running
  · have hcases := exec_rs_cases (step_running s hr h).2
    rw [decodeRecord_eq_ret_iff, hr] at hcases
    obtain ⟨hop, ht⟩ | ⟨hop, ht | ht⟩ := hcases <;> simp [hr, ht, hop]
  · simp [hr, step_idle s hr h]

/-! ### R23, R130 to R132: reset and the host's moves -/

theorem State.reset_resetWith : ResetWith State.reset.din State.reset :=
  ⟨State.reset_reg, rfl, rfl, rfl, rfl, rfl, rfl⟩

theorem State.resetEvent_resetWith (s : State) (din0 : List Byte) : ResetWith din0 (s.resetEvent din0) :=
  ⟨State.reset_reg, rfl, rfl, rfl, rfl, rfl, rfl⟩

/-- Settles O43, for the reset state and the reset event. -/
theorem resetRestoresEverything : Obligations.ResetRestoresEverything :=
  ⟨State.reset_resetWith, State.resetEvent_resetWith⟩

/-- Every state as reset leaves it meets the invariants, whatever its input. -/
theorem ResetWith.inv {din0 : List Byte} {t : State} (h : ResetWith din0 t) (hps : t.ps.wf = true) :
    t.Inv := by
  obtain ⟨hregs, hpc, heof, hrs, hfinfo, hdout, -⟩ := h
  exact {
    runningPc := fun _ => by omega
    pcBound := by omega
    pastEnd := fun hlt => by omega
    eofDry := fun hs => absurd (heof.symm.trans hs) (by decide)
    readyFresh := fun _ => ⟨hregs, heof, hpc, hdout⟩
    faultRecord := fun hs => absurd (hrs.symm.trans hs) (by decide)
    noRecord := fun _ => hfinfo
    storeCanonical := hps
    bootedToRun := fun hs => absurd hrs hs }

/-- Settles O41: the reset state is as reset leaves it, and its store is empty. -/
theorem resetMeetsInvariants : Obligations.ResetMeetsInvariants :=
  State.reset_resetWith.inv Memory.wf_reset

section HostMoves

variable {s : State}

/-- What a host's move may do in READY: put in a canonical store and set the two bits of the boot duties. -/
theorem State.Inv.prepare (h : s.Inv) (hr : s.rs = .ready) {ps : Memory} (hps : ps.wf = true)
    (launch : Nat) (loaded inputReady : Bool) :
    State.Inv { s with ps := ps, launch := launch, loaded := loaded, inputReady := inputReady } where
  runningPc := h.runningPc
  pcBound := h.pcBound
  pastEnd := h.pastEnd
  eofDry := h.eofDry
  readyFresh := h.readyFresh
  faultRecord := h.faultRecord
  noRecord := h.noRecord
  storeCanonical := hps
  bootedToRun hs := absurd hr hs

theorem State.Inv.load (h : s.Inv) (source : Option (List Byte)) : (s.load source).Inv := by
  unfold State.load
  split
  case isTrue hr =>
    exact h.prepare hr (Memory.wf_layout _ (List.length_take_le _ _)) (s.launch + 1) source.isSome s.inputReady
  case isFalse => exact h

theorem State.Inv.openInput (h : s.Inv) (opened : Bool) : (s.openInput opened).Inv := by
  unfold State.openInput
  split
  case isTrue hr => exact h.prepare hr h.storeCanonical s.launch s.loaded opened
  case isFalse => exact h

theorem State.canRun_iff : s.canRun = true ↔ s.rs = .ready ∧ s.loaded = true ∧ s.inputReady = true := by
  simp [State.canRun, and_assoc]

theorem State.Inv.runEvent (h : s.Inv) : s.runEvent.Inv := by
  unfold State.runEvent
  split
  case isFalse => exact h
  case isTrue hcan =>
    obtain ⟨hr, hloaded, hinput⟩ := State.canRun_iff.mp hcan
    exact {
      runningPc := fun _ => Nat.zero_le 254
      pcBound := Nat.zero_le 256
      pastEnd := fun hlt => nomatch hlt
      eofDry := h.eofDry
      readyFresh := fun hs => nomatch hs
      faultRecord := fun hs => nomatch hs
      noRecord := fun _ => h.noRecord (by simp [hr])
      storeCanonical := h.storeCanonical
      bootedToRun := fun _ => ⟨hloaded, hinput⟩ }

end HostMoves

/-- Settles O42, move by move. -/
theorem hostMovesKeepInvariants : Obligations.HostMovesKeepInvariants := by
  intro s m h
  cases m with
  | reset din0 => exact (s.resetEvent_resetWith din0).inv Memory.wf_reset
  | load source => exact h.load source
  | openInput opened => exact h.openInput opened
  | run => exact h.runEvent

end Sys2Proof.Machine

/-! Proofs of the statements about the program store (spec/20_memory.md): the fetch, its independence of the rest
of the store, the store's constancy over a run, the load, and the record the host places. -/

namespace Sys2Proof.Machine

/-! ### R31, R32, R35: fetch, and the step of a RUNNING machine -/

theorem step_of_pc_le {s : State} (hr : s.rs = .running) (hp : s.pc ≤ 254) :
    step s = exec (decodeRecord (s.storeByte s.pc) (s.storeByte (s.pc + 1))) s := by
  simp [step, hr, fetchInstr, hp]

theorem step_of_lt_pc {s : State} (hr : s.rs = .running) (hp : 254 < s.pc) :
    step s = .fault (.fetchOutsideStore s.pc) := by
  simp [step, hr, fetchInstr, Nat.not_le.mpr hp]

/-- Settles O32: no whole record lies at such an offset. -/
theorem fetchOutsideStoreStops : Obligations.FetchOutsideStoreStops :=
  fun _ hr hp => step_of_lt_pc hr hp

/-- Settles O33: the fetch succeeds, every instruction answers a next state, and R17 says which run states it can
be in. -/
theorem everyRunningStepCompletes : Obligations.EveryRunningStepCompletes := by
  intro s hr hp
  have hstep := (step_of_pc_le hr hp).trans (exec_eq s _)
  obtain ⟨-, hrs, -⟩ := runStateTransitionsOfAStep s _ hstep
  exact ⟨_, hstep, hrs hr⟩

/-! ### R30, R32: what a step reads of the store -/

/-- `s` with another program store: other bytes loaded, other free values in the rest. -/
def State.withStore (s : State) (ps : Memory) (launch : Nat) : State := { s with ps := ps, launch := launch }

theorem SameRegs.x_eq {s s' : State} (h : SameRegs s s') : s'.x = s.x :=
  Vector.ext fun k hk => by simpa [State.reg, Nat.mod_eq_of_lt hk] using h (BitVec.ofNat 4 k)

theorem agreeButStore_iff {s s' : State} :
    AgreeButStore s s' ↔ ∃ ps launch, s' = s.withStore ps launch := by
  constructor
  · intro ⟨hregs, hpc, heof, hrs, hfinfo, hdin, hdout, hloaded, hinput⟩
    have hx := hregs.x_eq
    cases s'
    cases hx; cases hpc; cases heof; cases hrs; cases hfinfo
    cases hdin; cases hdout; cases hloaded; cases hinput
    exact ⟨_, _, rfl⟩
  · rintro ⟨ps, launch, rfl⟩
    exact ⟨fun _ => rfl, rfl, rfl, rfl, rfl, rfl, rfl, rfl, rfl⟩

section WithStore

variable (s : State) (ps : Memory) (launch : Nat)

@[simp] theorem State.withStore_pc : (s.withStore ps launch).pc = s.pc := rfl
@[simp] theorem State.withStore_rs : (s.withStore ps launch).rs = s.rs := rfl
@[simp] theorem State.withStore_eof : (s.withStore ps launch).eof = s.eof := rfl
@[simp] theorem State.withStore_din : (s.withStore ps launch).din = s.din := rfl

theorem State.commit_withStore (next : Int) :
    (s.withStore ps launch).commit next = (s.commit next).withStore ps launch := by
  unfold State.commit
  split <;> rfl

theorem executed_withStore (i : Instr) :
    executed i (s.withStore ps launch) = (executed i s).withStore ps launch := by
  cases i with
  | inp lo hi =>
    simp only [executed, State.withStore_din]
    split <;> rfl
  | out lo hi =>
    simp only [executed, State.withStore_eof, apply_ite (State.withStore · ps launch)]
    rfl
  | _ => rfl

/-- No instruction looks at the store: fetching is all that reads it. -/
theorem committed_withStore (i : Instr) :
    committed i (s.withStore ps launch) = (committed i s).withStore ps launch := by
  cases i with
  | ret => rfl
  | _ => exact (congrArg (State.commit · _) (executed_withStore s ps launch _)).trans (State.commit_withStore ..)

/-- A machine that is not RUNNING reads nothing of the store. -/
theorem step_withStore_of_idle {t : State} (hr : s.rs ≠ .running) (h : step s = .next t) :
    step (s.withStore ps launch) = .next (t.withStore ps launch) := by
  obtain rfl := step_idle s hr h
  rw [step, if_neg hr] at h
  rw [step, State.withStore_rs, if_neg hr]
  cases hs : t.rs <;> simp [notRunning, hs] at h ⊢

end WithStore

/-- Settles O34: the same record is fetched, and its instruction does not look at the store. -/
theorem stepReadsOnlyItsRecord : Obligations.StepReadsOnlyItsRecord := by
  intro s s' t hagree hopcode hoperand h
  obtain ⟨ps, launch, rfl⟩ := agreeButStore_iff.mp hagree
  refine ⟨t.withStore ps launch, ?_, agreeButStore_iff.mpr ⟨ps, launch, rfl⟩⟩
  by_cases hr : s.rs = .running
  · obtain ⟨hp, hexec⟩ := step_running s hr h
    rw [step_of_pc_le (s := s.withStore ps launch) hr hp, State.withStore_pc, hopcode, hoperand, exec_eq,
      committed_withStore, exec_next_eq hexec]
  · exact step_withStore_of_idle s ps launch hr h

/-! ### R41: the store over a run -/

theorem SameStore.refl (s : State) : SameStore s s := ⟨rfl, rfl, rfl, rfl, fun _ => rfl⟩

theorem SameStore.trans {s u t : State} (h : SameStore s u) (h' : SameStore u t) : SameStore s t := by
  obtain ⟨hps, hlaunch, hloaded, hinput, hbyte⟩ := h
  obtain ⟨hps', hlaunch', hloaded', hinput', hbyte'⟩ := h'
  exact ⟨hps'.trans hps, hlaunch'.trans hlaunch, hloaded'.trans hloaded, hinput'.trans hinput,
    fun a => (hbyte' a).trans (hbyte a)⟩

theorem executed_sameStore (i : Instr) (s : State) : SameStore s (executed i s) := by
  obtain ⟨-, -, -, hps, hlaunch, hloaded, hinput⟩ := executed_frame s i
  exact ⟨hps, hlaunch, hloaded, hinput, fun a => by simp only [State.storeByte, hps, hlaunch]⟩

theorem exec_sameStore {i : Instr} {s t : State} (h : exec i s = .next t) : SameStore s t := by
  obtain ⟨-, -, -, hcommit⟩ := exec_onlyPointer h
  exact (executed_sameStore i s).trans hcommit

theorem step_sameStore {s t : State} (h : step s = .next t) : SameStore s t := by
  by_cases hr : s.rs = .running
  · exact exec_sameStore (step_running s hr h).2
  · exact step_idle s hr h ▸ .refl s

/-- Settles O35, by induction on the number of steps. -/
theorem storeNeverChanges : Obligations.StoreNeverChanges := by
  intro n
  induction n with
  | zero =>
    rintro s _ rfl
    exact .refl _
  | succ n ih =>
    rintro s t ⟨u, hstep, hrest⟩
    exact (step_sameStore hstep).trans (ih u t hrest)

/-! ### R36: the load -/

section Load

variable {s : State}

theorem State.load_of_ready (hr : s.rs = .ready) (source : Option (List Byte)) :
    s.load source =
      { s with
        ps := Memory.layout 0 ((source.getD []).take 256)
        launch := s.launch + 1
        loaded := source.isSome } := if_pos hr

theorem State.load_of_not_ready (hr : s.rs ≠ .ready) (source : Option (List Byte)) : s.load source = s :=
  if_neg hr

theorem State.load_loaded (hr : s.rs = .ready) (source : Option (List Byte)) :
    (s.load source).loaded = source.isSome := by
  rw [State.load_of_ready hr]

/-- What an offset reads after a load: the byte of the program's first 256 there, or else a free value. -/
theorem State.load_storeByte (hr : s.rs = .ready) (source : Option (List Byte)) (a : Nat) :
    (s.load source).storeByte a =
      (((source.getD []).take 256)[a]?).getD (Config.residualByte (s.load source).launch a) := by
  simp [State.load_of_ready hr, State.storeByte, Memory.read_layout]

theorem State.load_storeByte_of_getElem? (hr : s.rs = .ready) {program : List Byte} {a : Nat} {b : Byte}
    (ha : a < 256) (hb : program[a]? = some b) : (s.load (some program)).storeByte a = b := by
  simp [State.load_storeByte hr, List.getElem?_take_of_lt ha, hb]

theorem State.load_storeByte_of_length_le (hr : s.rs = .ready) {program : List Byte} {a : Nat}
    (ha : program.length ≤ a) :
    (s.load (some program)).storeByte a = Config.residualByte (s.load (some program)).launch a := by
  have hnone : (program.take 256)[a]? = none :=
    List.getElem?_eq_none ((List.length_take_le' 256 program).trans ha)
  simp [State.load_storeByte hr, hnone]

theorem State.load_take (hr : s.rs = .ready) (program : List Byte) :
    s.load (some program) = s.load (some (program.take 256)) := by
  simp [State.load_of_ready hr, List.take_take]

/-- A load writes the store and the bit of its duty, and nothing else. -/
theorem State.load_frame (s : State) (source : Option (List Byte)) :
    SameRegs s (s.load source) ∧ (s.load source).pc = s.pc ∧ (s.load source).eof = s.eof ∧
    (s.load source).rs = s.rs ∧ (s.load source).finfo = s.finfo ∧ SameStreams s (s.load source) ∧
    (s.load source).inputReady = s.inputReady := by
  by_cases hr : s.rs = .ready
  · rw [State.load_of_ready hr]
    exact ⟨fun _ => rfl, rfl, rfl, rfl, rfl, ⟨rfl, rfl⟩, rfl⟩
  · rw [State.load_of_not_ready hr]
    exact ⟨fun _ => rfl, rfl, rfl, rfl, rfl, ⟨rfl, rfl⟩, rfl⟩

end Load

/-- Settles O45, by what an offset reads after a load and by the load's frame. -/
theorem loadCopiesAndTruncates : Obligations.LoadCopiesAndTruncates := by
  intro s
  refine ⟨fun hr program => ⟨?_, ?_, ?_, ?_⟩, fun hr => ⟨?_, ?_⟩, ?_, ?_⟩
  · exact fun a ha b hb => State.load_storeByte_of_getElem? hr ha hb
  · exact fun a _ hlen => State.load_storeByte_of_length_le hr hlen
  · exact State.load_take hr program
  · exact State.load_loaded hr (some program)
  · exact State.load_loaded hr none
  · intro a
    simp [State.load_storeByte hr]
  · exact s.load_frame
  · exact State.load_of_not_ready

/-! ### R32, R33: the record the host places -/

/-- The word of a record has its two bytes, the opcode at the lower offset. -/
theorem tableWordBytes_record (opcode operand : Byte) :
    tableWordBytes 16 (opcode.toNat * 256 + operand.toNat) = [opcode, operand] := by
  have hopcode := opcode.isLt
  have hoperand := operand.isLt
  have hhigh : BitVec.ofNat 8 ((opcode.toNat * 256 + operand.toNat) % 2 ^ 16 / 256) = opcode :=
    BitVec.eq_of_toNat_eq (by rw [BitVec.toNat_ofNat]; omega)
  have hlow : BitVec.ofNat 8 ((opcode.toNat * 256 + operand.toNat) % 2 ^ 16) = operand :=
    BitVec.eq_of_toNat_eq (by rw [BitVec.toNat_ofNat]; omega)
  rw [tableWordBytes, hhigh, hlow]

theorem fetchOffset_le (pc : Nat) : fetchOffset pc ≤ 254 := by
  unfold fetchOffset
  split <;> omega

section PlaceRecord

variable (s : State) (opcode operand : Byte)

theorem State.placeRecord_opcode :
    (s.placeRecord [opcode, operand]).storeByte (fetchOffset s.pc) = opcode := by
  simp [State.storeByte, State.placeRecord, Memory.writeBytes, Memory.read_write]

theorem State.placeRecord_operand :
    (s.placeRecord [opcode, operand]).storeByte (fetchOffset s.pc + 1) = operand := by
  simp [State.storeByte, State.placeRecord, Memory.writeBytes, Memory.read_write]

theorem step_placeRecord :
    step (s.placeRecord [opcode, operand]) =
      exec (decodeRecord opcode operand) (s.placeRecord [opcode, operand]) := by
  have hpc : (s.placeRecord [opcode, operand]).pc = fetchOffset s.pc := rfl
  rw [step_of_pc_le rfl (fetchOffset_le s.pc), hpc, State.placeRecord_opcode, State.placeRecord_operand]

end PlaceRecord

/-- Settles O48: the two bytes are read back from the offset they were written at. -/
theorem placedRecordRunsNext : Obligations.PlacedRecordRunsNext := by
  intro s opcode operand
  simp only [State.withFetchWord, tableWordBytes_record]
  exact step_placeRecord s opcode operand

end Sys2Proof.Machine

/-! Proofs of the statements about the encoding (spec/30_encoding.md): the fields of the operand byte, the
decoder's last row, the round trip in both directions, and what the decoder reads from a table word. -/

namespace Sys2Proof.Machine

/-! ### R51, R59: the operand byte and its nibbles -/

@[simp] theorem loField_operandByte (lo hi : Nibble) : loField (operandByte lo hi) = lo :=
  BitVec.extractLsb'_append_eq_right

@[simp] theorem hiField_operandByte (lo hi : Nibble) : hiField (operandByte lo hi) = hi :=
  BitVec.extractLsb'_append_eq_left

@[simp] theorem operandByte_loField_hiField (operand : Byte) :
    operandByte (loField operand) (hiField operand) = operand :=
  BitVec.extractLsb'_append_extractLsb'

theorem toNat_loField (operand : Byte) : (loField operand).toNat = operand.toNat % 16 := by
  simp [loField]

/-! ### R55: the last row of the table -/

theorem not_mem_assignedOpcodes {opcode : Byte}
    (h : opcode = 0x00#8 ∨ opcode = 0x08#8 ∨ opcode = 0x09#8 ∨ 0x12 ≤ opcode.toNat) :
    opcode ∉ assignedOpcodes := by
  obtain rfl | rfl | rfl | h := h
  · decide
  · decide
  · decide
  · have hlow : ∀ op ∈ assignedOpcodes, op.toNat < 0x12 := by decide
    exact fun hmem => absurd (hlow opcode hmem) (by omega)

theorem decodeRecord_of_not_mem {opcode : Byte} (h : opcode ∉ assignedOpcodes) (operand : Byte) :
    decodeRecord opcode operand = .nopUnassigned opcode operand := by
  unfold decodeRecord
  split
  case h_16 => rfl
  all_goals exact absurd (by decide) h

/-! ### R50, R57, R58: decoding and encoding undo each other -/

theorem decodeRecord_opcodeOf_operandOf {i : Instr} (h : i.wf = true) :
    decodeRecord (opcodeOf i) (operandOf i) = i := by
  cases i with
  | inc | dec | movc | jmp | jfe | ret => rfl
  | mov | lsl | lsr | add | sub | xor | or | inp | out => simp [opcodeOf, operandOf, decodeRecord]
  | nopUnassigned opcode operand =>
    have hmem : opcode ∉ assignedOpcodes := by simpa [Instr.wf] using h
    exact decodeRecord_of_not_mem hmem operand

theorem operandOf_decodeRecord (opcode operand : Byte) : operandOf (decodeRecord opcode operand) = operand := by
  unfold decodeRecord
  split <;> simp [operandOf]

theorem encode_decodeRecord (opcode operand : Byte) :
    encode (decodeRecord opcode operand) = [opcode, operand] := by
  rw [encode, opcodeOf_decodeRecord, operandOf_decodeRecord]

theorem decodeRecord_wf (opcode operand : Byte) : (decodeRecord opcode operand).wf = true := by
  unfold decodeRecord
  split
  case h_16 => simp_all [Instr.wf, assignedOpcodes]
  all_goals rfl

/-- Settles O2: an instruction's two bytes are one record, and that record decodes to it. -/
theorem decodeInvertsEncode : Obligations.DecodeInvertsEncode := by
  intro i rest h
  change Except.ok (decodeRecord (opcodeOf i) (operandOf i), rest) = _
  rw [decodeRecord_opcodeOf_operandOf h]

/-- Settles O3: the instruction is the one the record decodes to. -/
theorem encodeInvertsDecode : Obligations.EncodeInvertsDecode :=
  fun opcode operand => ⟨decodeRecord opcode operand, rfl, decodeRecord_wf opcode operand,
    encode_decodeRecord opcode operand⟩

/-- Settles O4: each record is the encoding of the instruction the spec names. -/
theorem specRecordsDecode : Obligations.SpecRecordsDecode :=
  ⟨decodeInvertsEncode (.movc 0x41#8) [] rfl, decodeInvertsEncode (.out 0#4 0#4) [] rfl,
    decodeInvertsEncode (.ret 0x00#8) [] rfl, decodeInvertsEncode (.inc 0x23#8) [] rfl,
    decodeInvertsEncode (.mov 1#4 2#4) [] rfl, decodeInvertsEncode (.lsl 4#4 15#4) [] rfl,
    decodeInvertsEncode (.jmp 0xF8#8) [] rfl, decodeInvertsEncode (.add 2#4 15#4) [] rfl,
    decodeInvertsEncode (.inp 3#4 15#4) [] rfl, decodeInvertsEncode (.nopUnassigned 0x08#8 0xFF#8) [] rfl⟩

/-! ### R33, R54: the word of a table row -/

section TableWord

variable (opcode operand : Byte)

theorem toNat_append_record : (opcode ++ operand).toNat = opcode.toNat * 256 + operand.toNat := by
  rw [BitVec.toNat_append, ← Nat.shiftLeft_add_eq_or_of_lt operand.isLt, Nat.shiftLeft_eq]

theorem decodeTableWord_append :
    decodeTableWord 16 (opcode ++ operand).toNat = some (decodeRecord opcode operand) := by
  simp [decodeTableWord, toNat_append_record, tableWordBytes_record, decode]

theorem append_and_opcodeMask : (opcode ++ operand) &&& 0xFF00#16 = opcode ++ 0x00#8 := by
  have hmask : 0xFF00#16 = BitVec.allOnes 8 ++ 0x00#8 := by decide
  rw [hmask, BitVec.and_append, BitVec.and_allOnes, BitVec.and_zero]

variable {opcode operand}

/-- A row's mask and match pin the opcode byte and no more. -/
theorem opcode_eq_of_match (row : Byte) (h : (opcode ++ operand) &&& 0xFF00#16 = row ++ 0x00#8) :
    opcode = row := by
  rwa [append_and_opcodeMask, BitVec.append_left_inj] at h

theorem decodeTableWord_of_match (row : Byte) (h : (opcode ++ operand) &&& 0xFF00#16 = row ++ 0x00#8) :
    decodeTableWord 16 (opcode ++ operand).toNat = some (decodeRecord row operand) := by
  rw [decodeTableWord_append, opcode_eq_of_match row h]

end TableWord

/-- Settles O1: the mask leaves the opcode byte alone, and each row is the decoder's own for that byte. -/
theorem opcodeByteSelectsOperation : Obligations.OpcodeByteSelectsOperation := by
  intro w
  obtain ⟨opcode, operand, rfl⟩ : ∃ opcode operand : Byte, w = opcode ++ operand :=
    ⟨w.extractLsb' 8 8, w.extractLsb' 0 8,
      (BitVec.extractLsb'_append_extractLsb' (w := 8) (len := 8) (x := w)).symm⟩
  have hoperand : (opcode ++ operand).extractLsb' 0 8 = operand := BitVec.extractLsb'_append_eq_right
  have hopcode : (opcode ++ operand).extractLsb' 8 8 = opcode := BitVec.extractLsb'_append_eq_left
  have hlo : (opcode ++ operand).extractLsb' 0 4 = loField operand :=
    BitVec.extractLsb'_append_eq_of_add_le (by decide)
  have hhi : (opcode ++ operand).extractLsb' 4 4 = hiField operand :=
    BitVec.extractLsb'_append_eq_of_add_le (by decide)
  have row := decodeTableWord_of_match (opcode := opcode) (operand := operand)
  rw [hoperand, hopcode, hlo, hhi]
  refine ⟨row 0x01#8, row 0x02#8, row 0x03#8, row 0x04#8, row 0x05#8, row 0x06#8, row 0x07#8, row 0x0A#8,
    row 0x0B#8, row 0x0C#8, row 0x0D#8, row 0x0E#8, row 0x0F#8, row 0x10#8, row 0x11#8, fun h => ?_⟩
  have hlast : opcode = 0x00#8 ∨ opcode = 0x08#8 ∨ opcode = 0x09#8 ∨ 0x12 ≤ opcode.toNat := by
    obtain h | h | h | h := h
    · exact .inl (opcode_eq_of_match 0x00#8 h)
    · exact .inr (.inl (opcode_eq_of_match 0x08#8 h))
    · exact .inr (.inr (.inl (opcode_eq_of_match 0x09#8 h)))
    · rw [toNat_append_record] at h
      exact .inr (.inr (.inr (by omega)))
  rw [decodeTableWord_append, decodeRecord_of_not_mem (not_mem_assignedOpcodes hlast)]

/-! ### R57: the operand bits a format ignores -/

/-- Settles O5: the four instructions use the low field alone; INC, DEC, RET and the last row use no field. -/
theorem ignoredOperandBitsHaveNoEffect : Obligations.IgnoredOperandBitsHaveNoEffect := by
  intro opcode a b s
  constructor
  · intro hmem hab
    have hlo : loField a = loField b := BitVec.eq_of_toNat_eq (by rw [toNat_loField, toNat_loField, hab])
    simp only [List.mem_cons, List.not_mem_nil, or_false] at hmem
    obtain rfl | rfl | rfl | rfl := hmem
    · exact congrArg (execLsl · s) hlo
    · exact congrArg (execLsr · s) hlo
    · exact congrArg (execInp · s) hlo
    · exact congrArg (execOut · s) hlo
  · intro hN
    by_cases hmem : opcode ∈ assignedOpcodes
    · have hopcode : opcode = 0x01#8 ∨ opcode = 0x02#8 ∨ opcode = 0x0B#8 := by
        simp only [assignedOpcodes, List.mem_cons] at hmem hN
        tauto
      obtain rfl | rfl | rfl := hopcode
      · rfl
      · rfl
      · rfl
    · rw [decodeRecord_of_not_mem hmem, decodeRecord_of_not_mem hmem, exec_nopUnassigned, exec_nopUnassigned]

end Sys2Proof.Machine

/-! Proofs of the statements about the step (spec/40_cycle.md): the instruction it runs, the next pointer and its
commit, what a fault keeps of the offender's effects, and the length of a run without a jump. -/

namespace Sys2Proof.Machine

/-! ### R61, R62: when a step runs an instruction, and which -/

/-- Settles O30: the fetch hands over the record's two bytes, and they decode to one instruction only. -/
theorem stepRunsDecodedInstruction : Obligations.StepRunsDecodedInstruction := by
  intro s i hr hp hdecode _
  have hi : decodeRecord (s.storeByte s.pc) (s.storeByte (s.pc + 1)) = i :=
    congrArg Prod.fst (Except.ok.inj hdecode)
  rw [step_of_pc_le hr hp, hi]

theorem step_of_not_running {s : State} (hr : s.rs ≠ .running) : step s = notRunning s := if_neg hr

theorem step_of_ready {s : State} (hs : s.rs = .ready) : step s = .next s := by
  rw [step_of_not_running (by simp [hs]), notRunning, hs]

theorem step_of_halted {s : State} (hs : s.rs = .halted) : step s = .next s := by
  rw [step_of_not_running (by simp [hs]), notRunning, hs]

theorem step_of_faulted {s : State} (hs : s.rs = .faulted) : step s = .fault (.programFault s.finfo) := by
  rw [step_of_not_running (by simp [hs]), notRunning, hs]

/-- Settles O31, by the run state. -/
theorem notRunningTakesNoStep : Obligations.NotRunningTakesNoStep :=
  fun _ => ⟨fun hs => hs.elim step_of_ready step_of_halted, step_of_faulted⟩

/-! ### R64, R65: the next pointer and its three commits -/

section NextPointer

variable (i : Instr) (s : State)

/-- What an instruction asks for is the mux's choice between the two candidates of R64. -/
theorem asked_eq_mux :
    asked i s = if jumpTaken i s then (s.pc : Int) + displacement i else (s.pc : Int) + 2 := by
  cases i <;> rfl

variable {i}

theorem haltNext_eq_false (h : ∀ operand, i ≠ .ret operand) : haltNext i = false := by
  cases i with
  | ret operand => exact absurd rfl (h operand)
  | _ => rfl

variable {next : Int}

/-- R65 (b). -/
theorem State.commit_goesOn (h : 0 ≤ next ∧ next ≤ 254) :
    ((s.commit next).pc : Int) = next ∧ (s.commit next).rs = s.rs ∧ (s.commit next).finfo = s.finfo := by
  rw [s.commit_inside h]
  exact ⟨Int.toNat_of_nonneg h.1, rfl, rfl⟩

/-- R65 (c). -/
theorem State.commit_tookFault (h : next < 0 ∨ 254 < next) : TookFault s next (s.commit next) := by
  rw [s.commit_outside h]
  exact ⟨rfl, rfl, rfl⟩

end NextPointer

/-- Settles O36: RET halts; any other instruction commits what the mux chose, and its effects have left `pc`, `RS`
and `FINFO` as they were. -/
theorem nextPointerIsSelectedAndChecked : Obligations.NextPointerIsSelectedAndChecked := by
  intro i s t next h hnext
  rw [← asked_eq_mux] at hnext
  subst hnext
  obtain ⟨operand, rfl, rfl⟩ | ⟨hret, rfl⟩ := exec_cases h
  · exact ⟨fun _ => ⟨rfl, rfl, rfl⟩, nofun, nofun⟩
  · obtain ⟨hpc, hrs, hfinfo, -⟩ := executed_frame s i
    refine ⟨fun hhalt => ?_, fun _ hin => ?_, fun _ hout => ?_⟩
    · simp [haltNext_eq_false hret] at hhalt
    · rw [← hrs, ← hfinfo]
      exact (executed i s).commit_goesOn hin
    · rw [TookFault, ← hpc]
      exact (executed i s).commit_tookFault hout

/-! ### R66, R110: what a fault keeps -/

theorem SameStore.symm {s t : State} (h : SameStore s t) : SameStore t s := by
  obtain ⟨hps, hlaunch, hloaded, hinput, hbyte⟩ := h
  exact ⟨hps.symm, hlaunch.symm, hloaded.symm, hinput.symm, fun a => (hbyte a).symm⟩

theorem OnlyPointer.symm {s t : State} (h : OnlyPointer s t) : OnlyPointer t s := by
  obtain ⟨hregs, heof, ⟨hdin, hdout⟩, hstore⟩ := h
  exact ⟨fun r => (hregs r).symm, heof.symm, ⟨hdin.symm, hdout.symm⟩, hstore.symm⟩

theorem OnlyPointer.trans {s u t : State} (h : OnlyPointer s u) (h' : OnlyPointer u t) : OnlyPointer s t := by
  obtain ⟨hregs, heof, ⟨hdin, hdout⟩, hstore⟩ := h
  obtain ⟨hregs', heof', ⟨hdin', hdout'⟩, hstore'⟩ := h'
  exact ⟨fun r => (hregs' r).trans (hregs r), heof'.trans heof, ⟨hdin'.trans hdin, hdout'.trans hdout⟩,
    hstore.trans hstore'⟩

theorem State.setPc_onlyPointer (s : State) (p : Nat) : OnlyPointer s (s.setPc p) :=
  ⟨fun _ => rfl, rfl, ⟨rfl, rfl⟩, .refl s⟩

/-- Effects do not depend on the offset of the instruction. -/
theorem executed_setPc (i : Instr) (s : State) (p : Nat) :
    executed i (s.setPc p) = (executed i s).setPc p := by
  cases i with
  | inp lo hi =>
    simp only [executed, State.setPc_din]
    split <;> rfl
  | out lo hi =>
    simp only [executed, State.setPc_eof, apply_ite (State.setPc · p)]
    rfl
  | _ => rfl

/-- At whatever offset an instruction stands, it leaves the same registers, flag, streams and store. -/
theorem exec_setPc_onlyPointer {i : Instr} {s t u : State} {p : Nat} (ht : exec i s = .next t)
    (hu : exec i (s.setPc p) = .next u) : OnlyPointer u t := by
  have hoffset : OnlyPointer ((executed i s).setPc p) u := executed_setPc i s p ▸ exec_onlyPointer hu
  exact hoffset.symm.trans (((executed i s).setPc_onlyPointer p).symm.trans (exec_onlyPointer ht))

/-- Settles O38: the effects are those of any other offset, and neither commit undoes them. -/
theorem faultKeepsTheOffendersEffects : Obligations.FaultKeepsTheOffendersEffects :=
  fun _ _ _ _ _ ht _ hu => exec_setPc_onlyPointer ht hu

/-! ### R68: a run without a jump -/

/-- No instruction fetched along the run from `s` takes a jump. -/
def State.JumpFree (s : State) : Prop :=
  ∀ (k : Nat) (t : State) (i : Instr), Steps k s t → t.rs = .running → fetchInstr t = .ok i →
    jumpTaken i t = false

theorem State.JumpFree.step {s u : State} (h : s.JumpFree) (hstep : step s = .next u) : u.JumpFree :=
  fun k t i hk => h (k + 1) t i ⟨u, hstep, hk⟩

/-- One step of such a run ends it, or goes two offsets on inside the store. -/
theorem State.JumpFree.step_cases {s : State} (h : s.JumpFree) (hr : s.rs = .running) (hp : s.pc ≤ 254) :
    ∃ t, Machine.step s = .next t ∧
      ((t.EndedWell ∨ t.EndedInFault) ∨ (t.rs = .running ∧ t.pc = s.pc + 2 ∧ t.pc ≤ 254)) := by
  obtain ⟨i, hfetch, hstep⟩ : ∃ i, fetchInstr s = .ok i ∧ Machine.step s = exec i s :=
    ⟨_, if_pos hp, step_of_pc_le hr hp⟩
  have hjump : jumpTaken i s = false := h 0 s i rfl hr hfetch
  obtain ⟨hhalt, hinside, houtside⟩ :=
    nextPointerIsSelectedAndChecked i s (committed i s) ((s.pc : Int) + 2) (exec_eq s i) (by simp [hjump])
  refine ⟨committed i s, hstep.trans (exec_eq s i), ?_⟩
  cases hi : haltNext i with
  | true => exact .inl (.inl (hhalt hi).1)
  | false =>
    by_cases hlast : s.pc ≤ 252
    · obtain ⟨hpc, hrs, -⟩ := hinside hi (by omega)
      exact .inr ⟨hrs.trans hr, by omega, by omega⟩
    · obtain ⟨-, hrs, -⟩ := houtside hi (by omega)
      exact .inl (.inr hrs)

/-- Such a run needs no more steps than records fit between `pc` and the end of the store. -/
theorem State.JumpFree.ends {s : State} (h : s.JumpFree) (hr : s.rs = .running) (hp : s.pc ≤ 254) {n : Nat}
    (hn : 256 ≤ s.pc + 2 * n) : ∃ k t, k ≤ n ∧ Steps k s t ∧ (t.EndedWell ∨ t.EndedInFault) := by
  induction n generalizing s with
  | zero => omega
  | succ n ih =>
    obtain ⟨u, hstep, hend | ⟨hru, hpc, hpu⟩⟩ := h.step_cases hr hp
    · exact ⟨1, u, by omega, ⟨u, hstep, rfl⟩, hend⟩
    · obtain ⟨k, t, hk, hrun, hend⟩ := ih (h.step hstep) hru hpu (by omega)
      exact ⟨k + 1, t, by omega, ⟨u, hstep, hrun⟩, hend⟩

/-- Settles O49: at most 128 records fit in the store from any offset on. -/
theorem jumpFreeRunEndsWithin128Steps : Obligations.JumpFreeRunEndsWithin128Steps :=
  fun _ hr hp h => State.JumpFree.ends h hr hp (Nat.le_add_left 256 _)

end Sys2Proof.Machine

/-! Proofs of the statements about INC, DEC and the unassigned opcodes (spec/41_reserved_noop.md): nothing but the
advance of the pointer, or its fault. -/

namespace Sys2Proof.Machine

/-! ### R65: the end of an instruction that neither jumps nor halts -/

section Advance

variable (s : State)

theorem State.advance_onlyPointer : OnlyPointer s s.advance := s.commit_onlyPointer _

/-- The Exceptions clause of such an instruction's rule: the two sides of the bounds check on `pc + 2`. -/
theorem State.advance_goesOnOrFaults : GoesOnOrFaults s s.advance := by
  constructor
  · intro hinside
    rw [s.advance_inside hinside]
    exact ⟨rfl, rfl, rfl⟩
  · intro hlast
    rw [s.advance_outside (by omega)]
    exact ⟨rfl, rfl, rfl⟩

variable {s}

/-- An instruction whose whole meaning is the advance is a no-op. -/
theorem exec_onlyAdvances {i : Instr} (h : exec i s = .next s.advance) :
    ∃ t, exec i s = .next t ∧ OnlyPointer s t ∧ GoesOnOrFaults s t :=
  ⟨s.advance, h, s.advance_onlyPointer, s.advance_goesOnOrFaults⟩

end Advance

/-! ### R70 to R72: the no-ops -/

/-- Settles O6: each row decodes by its opcode byte, and each meaning is the advance alone. -/
theorem incAndDecOnlyAdvance : Obligations.IncAndDecOnlyAdvance :=
  ⟨fun _ => rfl, fun _ => rfl, fun operand s => exec_onlyAdvances (exec_inc s operand),
    fun operand s => exec_onlyAdvances (exec_dec s operand)⟩

/-- Settles O7: an opcode of these ranges is none of the assigned ones, and the meaning of the last row is the
advance alone. -/
theorem unassignedOpcodesOnlyAdvance : Obligations.UnassignedOpcodesOnlyAdvance :=
  fun opcode operand s h => ⟨decodeRecord_of_not_mem (not_mem_assignedOpcodes h) operand,
    exec_onlyAdvances (exec_nopUnassigned s opcode operand)⟩

end Sys2Proof.Machine

/-! Proofs of the statements about MOV and MOVC (spec/42_move.md): one register written, then the advance of the
pointer, or its fault. -/

namespace Sys2Proof.Machine

/-! ### R10, R65: an instruction that writes one register and advances -/

section RegisterWrite

variable (s : State) (d : Nibble) (v : Byte)

theorem State.setReg_onlyRegister : OnlyRegister d s (s.setReg d v) :=
  ⟨fun _ hne => s.setReg_reg_ne hne v, rfl, ⟨rfl, rfl⟩, rfl, rfl, rfl, rfl, fun _ => rfl⟩

variable {s d v}

/-- A frame of one register is kept by what changes only the pointer. -/
theorem OnlyRegister.trans_onlyPointer {u t : State} (h : OnlyRegister d s u) (h' : OnlyPointer u t) :
    OnlyRegister d s t := by
  obtain ⟨hregs, heof, ⟨hdin, hdout⟩, hstore⟩ := h
  obtain ⟨hregs', heof', ⟨hdin', hdout'⟩, hstore'⟩ := h'
  exact ⟨fun r hne => (hregs' r).trans (hregs r hne), heof'.trans heof, ⟨hdin'.trans hdin, hdout'.trans hdout⟩,
    hstore.trans hstore'⟩

/-- The Exceptions clause reads only `pc`, `RS` and `FINFO`, which the write leaves. -/
theorem State.setReg_advance_goesOnOrFaults : GoesOnOrFaults s (s.setReg d v).advance :=
  (s.setReg d v).advance_goesOnOrFaults

/-- An instruction whose whole meaning is one register write and the advance holds the value written there. -/
theorem exec_writesRegister {i : Instr} (h : exec i s = .next (s.setReg d v).advance) :
    ∃ t, exec i s = .next t ∧ t.reg d = v ∧ OnlyRegister d s t ∧ GoesOnOrFaults s t :=
  ⟨(s.setReg d v).advance, h, by rw [State.advance_reg, State.setReg_reg_self],
    (s.setReg_onlyRegister d v).trans_onlyPointer (s.setReg d v).advance_onlyPointer,
    State.setReg_advance_goesOnOrFaults⟩

end RegisterWrite

/-! ### R59: the operand byte as a number -/

theorem operandByte_eq_ofNat (lo hi : Nibble) :
    operandByte lo hi = BitVec.ofNat 8 (hi.toNat * 16 + lo.toNat) := by
  have hcat : (operandByte lo hi).toNat = hi.toNat * 16 + lo.toNat := by
    rw [operandByte, BitVec.toNat_append, ← Nat.shiftLeft_add_eq_or_of_lt lo.isLt, Nat.shiftLeft_eq]
  rw [← hcat, BitVec.ofNat_toNat, BitVec.setWidth_eq]

/-! ### R75, R76: the moves -/

/-- Settles O8: the two nibbles of the record are MOV's fields, and its meaning is one register write and the
advance. -/
theorem movCopiesRegister : Obligations.MovCopiesRegister :=
  ⟨fun lo hi => operandByte_eq_ofNat lo hi ▸ decodeRecord_opcodeOf_operandOf (i := .mov lo hi) rfl,
    fun lo hi s => exec_writesRegister (exec_mov s lo hi)⟩

/-- Settles O9: the record decodes by its opcode byte to MOVC with the operand byte, and its meaning is one write to
`x[0]` and the advance. -/
theorem movcLoadsRegisterZero : Obligations.MovcLoadsRegisterZero :=
  ⟨fun _ => rfl, fun imm s => exec_writesRegister (exec_movc s imm)⟩

end Sys2Proof.Machine

/-! Proofs of the statements about LSL and LSR (spec/43_shift.md): a byte shifted by one position with zero fill, as
a number and bit by bit, written to one register. -/

namespace Sys2Proof.Machine

/-! ### R80, R81: a byte shifted by one position -/

section ShiftByOne

variable (b : Byte)

theorem toNat_shiftLeft_one : (b <<< 1).toNat = 2 * b.toNat % 256 := by
  rw [BitVec.toNat_shiftLeft, Nat.shiftLeft_eq, Nat.pow_one, Nat.mul_comm]

theorem getLsbD_zero_shiftLeft_one : (b <<< 1).getLsbD 0 = false := by
  rw [BitVec.getLsbD_shiftLeft]
  simp

theorem getLsbD_succ_shiftLeft_one {k : Nat} (hk : k < 7) : (b <<< 1).getLsbD (k + 1) = b.getLsbD k := by
  have hinside : k + 1 < 8 := by omega
  rw [BitVec.getLsbD_shiftLeft]
  simp [hinside, -BitVec.getLsbD_eq_getElem]

theorem toNat_ushiftRight_one : (b >>> 1).toNat = b.toNat / 2 := by
  rw [BitVec.toNat_ushiftRight, Nat.shiftRight_one]

theorem getLsbD_ushiftRight_one (k : Nat) : (b >>> 1).getLsbD k = b.getLsbD (k + 1) := by
  rw [BitVec.getLsbD_ushiftRight, Nat.add_comm]

/-- The fill: old bit 8 is past the byte. -/
theorem getLsbD_seven_ushiftRight_one : (b >>> 1).getLsbD 7 = false := by
  rw [getLsbD_ushiftRight_one, BitVec.getLsbD_of_ge _ _ (Nat.le_refl 8)]

end ShiftByOne

/-! ### R80, R81: the shifts -/

/-- Settles O10: the two nibbles of the record are LSL's fields, and its meaning is one write of the shifted byte to
`x[lo]` and the advance, whatever `hi`. -/
theorem lslShiftsLeftByOne : Obligations.LslShiftsLeftByOne := by
  refine ⟨fun lo hi => operandByte_eq_ofNat lo hi ▸ decodeRecord_opcodeOf_operandOf (i := .lsl lo hi) rfl,
    fun lo hi s => ?_⟩
  obtain ⟨t, hexec, hreg, hframe, hpointer⟩ := exec_writesRegister (exec_lsl s lo hi)
  exact ⟨t, hexec, hreg ▸ toNat_shiftLeft_one _, hreg ▸ getLsbD_zero_shiftLeft_one _,
    fun _ hk => hreg ▸ getLsbD_succ_shiftLeft_one _ hk, hframe, hpointer⟩

/-- Settles O11: as LSL, with the byte shifted to the right. -/
theorem lsrShiftsRightByOne : Obligations.LsrShiftsRightByOne := by
  refine ⟨fun lo hi => operandByte_eq_ofNat lo hi ▸ decodeRecord_opcodeOf_operandOf (i := .lsr lo hi) rfl,
    fun lo hi s => ?_⟩
  obtain ⟨t, hexec, hreg, hframe, hpointer⟩ := exec_writesRegister (exec_lsr s lo hi)
  exact ⟨t, hexec, hreg ▸ toNat_ushiftRight_one _, hreg ▸ getLsbD_seven_ushiftRight_one _,
    fun k _ => hreg ▸ getLsbD_ushiftRight_one _ k, hframe, hpointer⟩

end Sys2Proof.Machine

/-! Proofs of the statements about JMP, JFE and RET (spec/44_control.md): where the pointer goes, or the fault it
raises, and the halt. -/

namespace Sys2Proof.Machine

/-! ### R85, R86: the jumps -/

section Jump

variable (s : State)

theorem State.jumpBy_onlyPointer (disp : Int) : OnlyPointer s (s.jumpBy disp) := s.commit_onlyPointer _

/-- R65 (b) and (c) for a taken jump: the two sides of the bounds check on `pc + disp`. -/
theorem State.jumpBy_landsOrFaults (disp : Int) :
    (0 ≤ (s.pc : Int) + disp ∧ (s.pc : Int) + disp ≤ 254 →
      ((s.jumpBy disp).pc : Int) = (s.pc : Int) + disp ∧ (s.jumpBy disp).rs = s.rs ∧
        (s.jumpBy disp).finfo = s.finfo) ∧
    ((s.pc : Int) + disp < 0 ∨ 255 ≤ (s.pc : Int) + disp →
      TookFault s ((s.pc : Int) + disp) (s.jumpBy disp)) := by
  rw [s.jumpBy_eq]
  exact ⟨s.commit_goesOn, fun hout => s.commit_tookFault (by omega)⟩

end Jump

/-- Settles O13, by the flag: set, JFE answers the state JMP answers; clear, its meaning is the advance alone. -/
theorem jfeJumpsExactlyWhenEofSet : Obligations.JfeJumpsExactlyWhenEofSet := by
  refine ⟨fun _ => rfl, fun disp s => ?_⟩
  cases heof : s.eof with
  | true =>
    exact ⟨s.jumpBy (sext8 disp), exec_jfe_set s disp heof, s.jumpBy_onlyPointer _,
      fun _ => ⟨exec_jmp s disp, s.jumpBy_landsOrFaults _⟩, nofun⟩
  | false =>
    obtain ⟨t, hexec, hframe, hpointer⟩ := exec_onlyAdvances (exec_jfe_clear s disp heof)
    exact ⟨t, hexec, hframe, nofun, fun _ => hpointer⟩

/-- Settles O12: the record decodes by its opcode byte to JMP with the operand byte, and its meaning is the taken
jump alone. -/
theorem jmpGoesToOwnOffsetPlusDisplacement : Obligations.JmpGoesToOwnOffsetPlusDisplacement :=
  ⟨fun _ => rfl, fun disp s => ⟨s.jumpBy (sext8 disp), exec_jmp s disp, s.jumpBy_onlyPointer _,
    s.jumpBy_landsOrFaults _⟩⟩

/-! ### R87: RET -/

/-- Settles O14: RET's commit is the halt, which asks for no bounds check. -/
theorem retHaltsWithoutFault : Obligations.RetHaltsWithoutFault :=
  ⟨fun _ => rfl, fun operand s => ⟨s.halt, exec_ret s operand, s.halt_onlyPointer, s.halt_rs, s.halt_pc,
    s.halt_finfo⟩⟩

end Sys2Proof.Machine

/-! Proofs of the statements about ADD, SUB, XOR and OR and about the `alu` (spec/45_arith_logic.md): its six
operations in numbers and bit by bit, one register written, and the identities the spec derives. -/

namespace Sys2Proof.Machine

/-! ### R94: the six operations of the `alu` -/

section Alu

variable (a b : Byte)

@[simp] theorem alu_add : alu .add a b = a + b := rfl
@[simp] theorem alu_sub : alu .sub a b = a - b := rfl
@[simp] theorem alu_xor : alu .xor a b = a ^^^ b := rfl
@[simp] theorem alu_or : alu .or a b = a ||| b := rfl
@[simp] theorem alu_lsl : alu .lsl a b = a <<< 1 := rfl
@[simp] theorem alu_lsr : alu .lsr a b = a >>> 1 := rfl

/-- The difference modulo 256, read in the integers so that it may go below 0 before the wrap. -/
theorem toNat_sub_eq_emod : ((a - b).toNat : Int) = ((a.toNat : Int) - b.toNat) % 256 := by
  have hb := b.isLt
  rw [BitVec.toNat_sub]
  omega

theorem getLsbD_xor_iff_ne (k : Nat) : (a ^^^ b).getLsbD k = true ↔ a.getLsbD k ≠ b.getLsbD k := by
  rw [BitVec.getLsbD_xor, Bool.xor_iff_ne]

theorem getLsbD_or_iff (k : Nat) :
    (a ||| b).getLsbD k = true ↔ a.getLsbD k = true ∨ b.getLsbD k = true := by
  rw [BitVec.getLsbD_or, Bool.or_eq_true]

/-- The mask of R94's row for LSL is the byte's own width. -/
theorem toNat_shiftLeft_one_eq_and : (a <<< 1).toNat = (a.toNat <<< 1) &&& 0xFF := by
  rw [BitVec.toNat_shiftLeft]
  exact (Nat.and_two_pow_sub_one_eq_mod _ 8).symm

end Alu

/-! ### R90 to R93: the four instructions -/

section TwoRegisters

variable {s : State} {lo hi d : Nibble} {v : Byte} {i : Instr}

/-- A record of format RR, its operand byte written as a number, decodes to its instruction. -/
theorem decodeRecord_ofNat_nibbles (hwf : i.wf = true) (hoperand : operandOf i = operandByte lo hi) :
    decodeRecord (opcodeOf i) (BitVec.ofNat 8 (hi.toNat * 16 + lo.toNat)) = i := by
  rw [← operandByte_eq_ofNat, ← hoperand, decodeRecord_opcodeOf_operandOf hwf]

theorem exec_reg_eq (h : exec i s = .next (s.setReg d v).advance) :
    ∃ t, exec i s = .next t ∧ t.reg d = v := by
  obtain ⟨t, hexec, hreg, -⟩ := exec_writesRegister h
  exact ⟨t, hexec, hreg⟩

end TwoRegisters

/-- Settles O15: the two nibbles of the record are ADD's fields, and its meaning is one write of the sum to `x[lo]`
and the advance. -/
theorem addWrapsModulo256 : Obligations.AddWrapsModulo256 := by
  refine ⟨fun lo hi => decodeRecord_ofNat_nibbles (i := .add lo hi) rfl rfl, fun lo hi s => ?_⟩
  obtain ⟨t, hexec, hreg, hframe⟩ := exec_writesRegister (exec_add s lo hi)
  exact ⟨t, hexec, hreg ▸ BitVec.toNat_add _ _, hframe⟩

/-- Settles O16: as ADD, with the destination minus the source. -/
theorem subWrapsModulo256 : Obligations.SubWrapsModulo256 := by
  refine ⟨fun lo hi => decodeRecord_ofNat_nibbles (i := .sub lo hi) rfl rfl, fun lo hi s => ?_⟩
  obtain ⟨t, hexec, hreg, hframe⟩ := exec_writesRegister (exec_sub s lo hi)
  exact ⟨t, hexec, hreg ▸ toNat_sub_eq_emod _ _, hframe⟩

/-- Settles O17: as ADD, with the bitwise difference. -/
theorem xorIsBitwise : Obligations.XorIsBitwise := by
  refine ⟨fun lo hi => decodeRecord_ofNat_nibbles (i := .xor lo hi) rfl rfl, fun lo hi s => ?_⟩
  obtain ⟨t, hexec, hreg, hframe⟩ := exec_writesRegister (exec_xor s lo hi)
  exact ⟨t, hexec, fun k _ => hreg ▸ getLsbD_xor_iff_ne _ _ k, hframe⟩

/-- Settles O18: as ADD, with the bitwise union. -/
theorem orIsBitwise : Obligations.OrIsBitwise := by
  refine ⟨fun lo hi => decodeRecord_ofNat_nibbles (i := .or lo hi) rfl rfl, fun lo hi s => ?_⟩
  obtain ⟨t, hexec, hreg, hframe⟩ := exec_writesRegister (exec_or s lo hi)
  exact ⟨t, hexec, fun k _ => hreg ▸ getLsbD_or_iff _ _ k, hframe⟩

/-- Settles O21: each instruction's meaning writes its operation to `x[lo]`, and each operation is a row of the
table. -/
theorem aluComputesTheSixOperations : Obligations.AluComputesTheSixOperations := by
  unfold Obligations.AluComputesTheSixOperations
  simp only [alu_add, alu_sub, alu_xor, alu_or, alu_lsl, alu_lsr]
  constructor
  · intro lo hi s
    exact ⟨exec_reg_eq (exec_add s lo hi), exec_reg_eq (exec_sub s lo hi), exec_reg_eq (exec_xor s lo hi),
      exec_reg_eq (exec_or s lo hi), exec_reg_eq (exec_lsl s lo hi), exec_reg_eq (exec_lsr s lo hi)⟩
  · intro a b
    exact ⟨BitVec.toNat_add a b, toNat_sub_eq_emod a b, BitVec.toNat_xor a b, BitVec.toNat_or a b,
      toNat_shiftLeft_one_eq_and a, BitVec.toNat_ushiftRight a 1⟩

/-! ### R95: the identities -/

section Identities

variable (a : Byte)

theorem add_self_eq_shiftLeft_one : a + a = a <<< 1 := by
  rw [BitVec.shiftLeft_eq_mul_twoPow]
  exact BitVec.mul_two.symm

/-- Bit 7 is lost: what is left is the byte modulo 128. -/
theorem shiftLeft_one_ushiftRight_one : (a <<< 1) >>> 1 = a &&& 0x7F#8 := by
  have hmask : a.toNat &&& 0x7F = a.toNat % 2 ^ 7 := Nat.and_two_pow_sub_one_eq_mod _ 7
  apply BitVec.eq_of_toNat_eq
  rw [toNat_ushiftRight_one, toNat_shiftLeft_one, BitVec.toNat_and]
  change _ = a.toNat &&& 0x7F
  omega

/-- Bit 0 is lost. -/
theorem ushiftRight_one_shiftLeft_one : (a >>> 1) <<< 1 = a &&& 0xFE#8 :=
  BitVec.shiftLeft_ushiftRight

end Identities

/-- Settles O22, identity by identity. -/
theorem aluIdentitiesOfTheSpec : Obligations.AluIdentitiesOfTheSpec := by
  intro a b c
  simp only [alu_add, alu_sub, alu_xor, alu_lsl, alu_lsr]
  exact ⟨BitVec.add_sub_cancel a b, add_self_eq_shiftLeft_one a, xor_cancel_right a b,
    shiftLeft_one_ushiftRight_one a, ushiftRight_one_shiftLeft_one a⟩

end Sys2Proof.Machine

/-! Proofs of the statements about IN and OUT (spec/46_io.md): what each does to the streams, the flag and the
registers, and that the machine emits nothing after its flag is set. -/

namespace Sys2Proof.Machine

/-! ### R102, R24 (d): the output after `EOF` -/

/-- Of the five effects, none clears the flag, and the one that emits needs it clear. -/
theorem executed_afterEof (i : Instr) {s : State} (heof : s.eof = true) :
    (executed i s).eof = true ∧ (executed i s).dout = s.dout := by
  cases executed_effect i s with
  | nothing _ result => rw [result]; exact ⟨heof, rfl⟩
  | writes d v _ result => rw [result]; exact ⟨heof, rfl⟩
  | takes lo hi byte rest _ _ _ result => rw [result]; exact ⟨heof, rfl⟩
  | runsDry lo hi _ _ _ result => rw [result]; exact ⟨rfl, rfl⟩
  | emits lo hi _ flag _ _ => exact absurd (heof.symm.trans flag) (by decide)

theorem step_afterEof {s t : State} (h : step s = .next t) (heof : s.eof = true) :
    t.eof = true ∧ t.dout = s.dout := by
  by_cases hr : s.rs = .running
  · obtain ⟨-, hflag, ⟨-, hout⟩, -⟩ := exec_onlyPointer (step_running s hr h).2
    rw [hflag, hout]
    exact executed_afterEof _ heof
  · obtain rfl := step_idle s hr h
    exact ⟨heof, rfl⟩

/-- Settles O29, by induction on the number of steps. -/
theorem nothingIsEmittedAfterEof : Obligations.NothingIsEmittedAfterEof := by
  intro n
  induction n with
  | zero =>
    rintro s _ rfl heof
    exact ⟨heof, rfl⟩
  | succ n ih =>
    rintro s t ⟨u, hstep, hrest⟩ heof
    obtain ⟨hu, hfirst⟩ := step_afterEof hstep heof
    obtain ⟨ht, hlater⟩ := ih u t hrest hu
    exact ⟨ht, hlater.trans hfirst⟩

/-! ### R100, R101: IN and OUT -/

/-- An instruction that makes `e` of `s`, away from the pointer and the run state, and then advances: the advance
leaves what was made, and the Exceptions clause is that of `s`. -/
theorem exec_advancesAfter {i : Instr} {s e : State} (h : exec i s = .next e.advance) (hpc : e.pc = s.pc)
    (hrs : e.rs = s.rs) (hfinfo : e.finfo = s.finfo) :
    ∃ t, exec i s = .next t ∧ OnlyPointer e t ∧ SameStore s t ∧ GoesOnOrFaults s t := by
  have hpointer := e.advance_goesOnOrFaults
  simp only [GoesOnOrFaults, WentOn, TookFault, hpc, hrs, hfinfo] at hpointer
  exact ⟨e.advance, h, e.advance_onlyPointer, exec_sameStore h, hpointer⟩

/-- Settles O19, by whether the input has a byte left. -/
theorem inReadsByteOrSetsEof : Obligations.InReadsByteOrSetsEof := by
  refine ⟨fun lo hi => decodeRecord_ofNat_nibbles (i := .inp lo hi) rfl rfl, fun lo hi s => ?_⟩
  cases hinput : s.din with
  | nil =>
    obtain ⟨t, hexec, ⟨hregs, heof, ⟨hdin, hdout⟩, -⟩, hrest⟩ :=
      exec_advancesAfter (exec_inp_dry s lo hi hinput) rfl rfl rfl
    exact ⟨t, hexec, nofun, fun _ => ⟨hregs, hdin.trans hinput, heof⟩, hdout, hrest⟩
  | cons byte rest =>
    obtain ⟨t, hexec, ⟨hregs, heof, ⟨hdin, hdout⟩, -⟩, hrest⟩ :=
      exec_advancesAfter (exec_inp_byte s lo hi hinput) rfl rfl rfl
    refine ⟨t, hexec, ?_, nofun, hdout, hrest⟩
    rintro _ _ ⟨rfl, rfl⟩
    exact ⟨(hregs lo).trans (State.setReg_reg_self ..), hdin, heof,
      fun r hne => (hregs r).trans (State.setReg_reg_ne _ hne _)⟩

/-- Settles O20, by the flag. -/
theorem outEmitsUnlessEof : Obligations.OutEmitsUnlessEof := by
  refine ⟨fun lo hi => decodeRecord_ofNat_nibbles (i := .out lo hi) rfl rfl, fun lo hi s => ?_⟩
  cases hflag : s.eof with
  | false =>
    obtain ⟨t, hexec, ⟨hregs, heof, ⟨hdin, hdout⟩, -⟩, hrest⟩ :=
      exec_advancesAfter (exec_out_open s lo hi hflag) rfl rfl rfl
    exact ⟨t, hexec, fun _ => hdout, nofun, hregs, heof.trans hflag, hdin, hrest⟩
  | true =>
    obtain ⟨t, hexec, ⟨hregs, heof, ⟨hdin, hdout⟩, -⟩, hrest⟩ :=
      exec_advancesAfter (exec_out_shut s lo hi hflag) rfl rfl rfl
    exact ⟨t, hexec, nofun, fun _ => hdout, hregs, heof.trans hflag, hdin, hrest⟩

end Sys2Proof.Machine

/-! Proof of the statement about ProgramFault (spec/60_exceptions.md): the table of R112 is the bounds check of R65 (c)
on the pointer each instruction asks for. -/

namespace Sys2Proof.Machine

/-! ### R112: the table's two columns -/

section FaultTable

variable {i : Instr} {s : State}

theorem faultColumns_target (hret : ∀ operand, i ≠ .ret operand) : (faultColumns i s).2 = asked i s := by
  cases i with
  | ret operand => exact absurd rfl (hret operand)
  | jfe disp => exact apply_ite Prod.snd _ _ _
  | _ => rfl

/-- R112's condition 'at 253 and 254' is, for an instruction inside the store, the bounds check on `pc + 2`. -/
theorem lastOffsets_iff_outside (hp : s.pc ≤ 254) :
    s.pc = 253 ∨ s.pc = 254 ↔ (s.pc : Int) + 2 < 0 ∨ (s.pc : Int) + 2 > 254 := by
  omega

theorem faultColumns_raises_iff (hret : ∀ operand, i ≠ .ret operand) (hp : s.pc ≤ 254) :
    (faultColumns i s).1 ↔ asked i s < 0 ∨ 254 < asked i s := by
  cases i with
  | ret operand => exact absurd rfl (hret operand)
  | jmp disp => exact .rfl
  | jfe disp =>
    cases heof : s.eof with
    | true => simp [faultColumns, asked, heof]
    | false => simpa [faultColumns, asked, heof] using lastOffsets_iff_outside hp
  | _ => exact lastOffsets_iff_outside hp

end FaultTable

/-- The bounds check faults a machine that was not FAULTED exactly when the pointer lies outside the store. -/
theorem State.commit_faulted_iff {s : State} (hrs : s.rs ≠ .faulted) (next : Int) :
    (s.commit next).rs = .faulted ↔ next < 0 ∨ 254 < next := by
  obtain ⟨p, hnext, hp, heq⟩ | ⟨hout, heq⟩ := s.commit_cases next
  · rw [heq, State.setPc_rs]
    exact iff_of_false hrs (by omega)
  · rw [heq]
    exact iff_of_true rfl hout

/-- Settles O37: RET's halt raises nothing; any other instruction raises what the bounds check on the pointer it asks
for raises, and that pointer is within a displacement's reach of `pc`. -/
theorem programFaultExactlyWhenTabled : Obligations.ProgramFaultExactlyWhenTabled := by
  intro i s t hr hp h
  obtain ⟨operand, rfl, rfl⟩ | ⟨hret, rfl⟩ := exec_cases h
  · exact ⟨iff_of_false nofun id, nofun⟩
  · obtain ⟨hpc, hrs, -⟩ := executed_frame s i
    have hfaulted := State.commit_faulted_iff (s := executed i s) (by simp [hrs, hr]) (asked i s)
    rw [faultColumns_raises_iff hret hp, faultColumns_target hret]
    refine ⟨hfaulted, fun hf => ?_⟩
    have hout := hfaulted.mp hf
    obtain ⟨hkept, -, hfinfo⟩ := (executed i s).commit_tookFault hout
    obtain ⟨hlow, hhigh⟩ := asked_bounds s i
    rw [hpc] at hkept hfinfo
    exact ⟨hfinfo, hkept, by omega⟩

end Sys2Proof.Machine

/-! Proofs of the statements about reset, launch and the end of a run (spec/70_reset_and_hazards.md), and of the one
about the reading of a displacement (spec/00_scope.md 7.1). -/

namespace Sys2Proof.Machine

/-! ### R131, R132: the host's last moves before a run -/

section Launch

variable {s : State}

theorem State.openInput_of_not_ready (hr : s.rs ≠ .ready) (opened : Bool) : s.openInput opened = s := if_neg hr

theorem State.openInput_rs (s : State) (opened : Bool) : (s.openInput opened).rs = s.rs := by
  unfold State.openInput
  split <;> rfl

theorem State.runEvent_of_canRun (h : s.canRun = true) : s.runEvent = { s with pc := 0, rs := .running } := if_pos h

theorem State.runEvent_of_not_canRun (h : ¬s.canRun = true) : s.runEvent = s := if_neg h

/-- Delivered or not, the run event writes the pointer and the run state only. -/
theorem State.runEvent_onlyPointer (s : State) : OnlyPointer s s.runEvent := by
  unfold State.runEvent
  split <;> exact ⟨fun _ => rfl, rfl, ⟨rfl, rfl⟩, .refl _⟩

end Launch

/-- Settles O44, by whether the event can be delivered. -/
theorem runEventStartsAtOffsetZero : Obligations.RunEventStartsAtOffsetZero := by
  refine fun s => ⟨fun hduties => ?_, fun hmissing => ?_⟩
  · have heq := State.runEvent_of_canRun (State.canRun_iff.mpr hduties)
    exact ⟨by rw [heq], by rw [heq], by rw [heq], s.runEvent_onlyPointer⟩
  · refine State.runEvent_of_not_canRun fun hcan => ?_
    obtain ⟨hr, hloaded, hinput⟩ := State.canRun_iff.mp hcan
    simp [hr, hloaded, hinput] at hmissing

/-! ### U3: how a machine comes to be RUNNING -/

/-- A host's move that leaves a machine RUNNING does nothing to one that was RUNNING before, and is the delivered run
event for one that was not. -/
theorem State.hostMove_running {s : State} {m : HostMove} (h : (s.hostMove m).rs = .running) :
    s.hostMove m = s ∧ s.rs = .running ∨ m = .run ∧ s.canRun = true := by
  cases m with
  | reset din0 => exact absurd h (by simp [State.hostMove, State.resetEvent, State.reset])
  | load source =>
    obtain ⟨-, -, -, hrs, -⟩ := s.load_frame source
    have hr : s.rs = .running := hrs.symm.trans h
    exact .inl ⟨State.load_of_not_ready (by simp [hr]) source, hr⟩
  | openInput opened =>
    have hr : s.rs = .running := (s.openInput_rs opened).symm.trans h
    exact .inl ⟨State.openInput_of_not_ready (by simp [hr]) opened, hr⟩
  | run =>
    by_cases hcan : s.canRun = true
    · exact .inr ⟨rfl, hcan⟩
    · have heq : s.hostMove .run = s := State.runEvent_of_not_canRun hcan
      exact .inl ⟨heq, heq ▸ h⟩

/-- Settles O47, move by move; a step keeps the run state of a machine that is not RUNNING, and of every machine the
two bits. -/
theorem noRunStartsWithoutBootDuties : Obligations.NoRunStartsWithoutBootDuties := by
  refine ⟨fun s m h => (State.hostMove_running h).imp_right fun ⟨hm, hcan⟩ => ⟨hm, State.canRun_iff.mp hcan⟩,
    fun s t h => ?_⟩
  obtain ⟨hidle, -⟩ := runStateTransitionsOfAStep s t h
  obtain ⟨-, -, hloaded, hinput, -⟩ := step_sameStore h
  exact ⟨fun ht => by_contra fun hr => hr ((hidle hr).symm.trans ht), hloaded, hinput⟩

/-! ### R132, R118: the boot -/

/-- The machine when the run event of the boot comes: reset, the load and the opening are done. -/
def State.prepared (s : State) (program data : Option (List Byte)) : State :=
  ((s.resetEvent (data.getD [])).load program).openInput data.isSome

section Boot

variable (s : State) (program data : Option (List Byte))

theorem State.boot_eq : s.boot program data = (s.prepared program data).runEvent := rfl

theorem State.prepared_resetWith : ResetWith (data.getD []) (s.prepared program data) :=
  s.resetEvent_resetWith (data.getD [])

theorem State.prepared_loaded : (s.prepared program data).loaded = program.isSome := rfl

theorem State.prepared_inputReady : (s.prepared program data).inputReady = data.isSome := rfl

theorem State.prepared_storeByte (a : Nat) :
    (s.prepared program data).storeByte a = ((s.resetEvent (data.getD [])).load program).storeByte a := rfl

theorem State.prepared_canRun_iff :
    (s.prepared program data).canRun = true ↔ program.isSome = true ∧ data.isSome = true := by
  obtain ⟨-, -, -, hrs, -⟩ := s.prepared_resetWith program data
  simp [State.canRun_iff, hrs, State.prepared_loaded, State.prepared_inputReady]

end Boot

/-- Settles O46: the boot's first three duties leave the reset state with the program in the store, and the run event
is delivered exactly when both sources could be opened. -/
theorem bootStartsOnlyASuccessfulLoad : Obligations.BootStartsOnlyASuccessfulLoad := by
  refine ⟨fun s program din0 => ?_, fun s program data a ha b hb => ?_, fun s program data hmissing => ?_⟩
  · obtain ⟨hregs, -, heof, -, hfinfo, hdout, hdin⟩ := s.prepared_resetWith (some program) (some din0)
    have hcan := (s.prepared_canRun_iff (some program) (some din0)).mpr ⟨rfl, rfl⟩
    rw [State.boot_eq, State.runEvent_of_canRun hcan]
    exact ⟨rfl, rfl, hregs, heof, hfinfo, hdin, hdout, rfl, rfl⟩
  · obtain ⟨-, -, -, -, -, -, -, hbyte⟩ := (s.prepared (some program) data).runEvent_onlyPointer
    rw [State.boot_eq, hbyte, State.prepared_storeByte]
    exact State.load_storeByte_of_getElem? rfl ha hb
  · have hcannot : ¬(s.prepared program data).canRun = true := by
      rw [State.prepared_canRun_iff]
      rcases hmissing with rfl | rfl <;> simp
    rw [State.boot_eq, State.runEvent_of_not_canRun hcannot]
    exact ⟨s.prepared_resetWith program data, rfl, rfl⟩

/-! ### R136: the jump to itself -/

/-- A state whose step answers it again is the one state after any number of steps. -/
theorem steps_iff_of_fixed {s : State} (h : step s = .next s) (n : Nat) (t : State) : Steps n s t ↔ t = s := by
  induction n with
  | zero => exact .rfl
  | succ n ih =>
    rw [← ih]
    constructor
    · rintro ⟨u, hstep, hrest⟩
      exact Host.Outcome.next.inj (h.symm.trans hstep) ▸ hrest
    · exact fun hrest => ⟨s, h, hrest⟩

/-- Inside the store a taken jump with displacement 0 commits the pointer it found. -/
theorem State.jumpBy_zero {s : State} (hp : s.pc ≤ 254) : s.jumpBy (sext8 0x00#8) = s := by
  have hnext : (s.pc : Int) + sext8 0x00#8 = s.pc := Int.add_zero _
  rw [State.jumpBy_eq, hnext, State.commit_inside s (by omega), Int.toNat_natCast]
  rfl

/-- Settles O50: either record decodes to a taken jump with displacement 0, so one step answers the same state. -/
theorem selfJumpRunsForever : Obligations.SelfJumpRunsForever := by
  intro s n hr hp hopcode hoperand
  have hexec : exec (decodeRecord (s.storeByte s.pc) 0x00#8) s = .next (s.jumpBy (sext8 0x00#8)) := by
    obtain hjmp | ⟨hjfe, heof⟩ := hopcode
    · rw [hjmp]
      exact exec_jmp s 0x00#8
    · rw [hjfe]
      exact exec_jfe_set s 0x00#8 heof
  have hstep : step s = .next s := by
    rw [step_of_pc_le hr hp, hoperand, hexec, State.jumpBy_zero hp]
  exact ⟨(steps_iff_of_fixed hstep n s).mpr rfl, fun t => (steps_iff_of_fixed hstep n t).mp⟩

/-! ### Section 7.1 of the scope: the displacement as a number -/

/-- The model's `sext8` is the library's two's-complement reading. -/
theorem sext8_eq_toInt (v : Byte) : sext8 v = v.toInt := by
  rw [sext8, BitVec.toInt_eq_toNat_cond]
  split <;> split <;> omega

/-- Settles O23, by the two branches of the reading and, for its values, by the library's reading. -/
theorem signExtensionIsTwosComplement : Obligations.SignExtensionIsTwosComplement := by
  refine ⟨fun v hv => if_pos hv, fun v hv => if_neg (by omega), fun d hlow hhigh => ?_⟩
  rw [sext8_eq_toInt]
  exact BitVec.toInt_ofInt_eq_self (by decide) hlow (by omega)

end Sys2Proof.Machine
